-- ==== Sys2Proof/Word.lean ====
section
/-! DEFINITION. The word types of the engine: bytes of memory, 16-bit words of pixels and streams, 32-bit registers
(00_scope.md R5, R7). -/

namespace Sys2Proof

/-- A byte of memory, and an 8-bit colour channel. -/
abbrev Byte := BitVec 8

/-- A 16-bit word: one RGB565 pixel value or one field of a run-length stream (glossary "Word"). -/
abbrev Half := BitVec 16

/-- A 32-bit register (R5 `REG_W`). -/
abbrev Word := BitVec 32

end Sys2Proof
end

