-- ==== Sys2Proof/Config.lean ====
section
/-! DEFINITION. What is fixed of the engine and no instruction computes: the size of the address space, the size of the
register window, and the free values. -/

namespace Sys2Proof

/-- R5 `ADDR_W` = 32, R45: byte addresses 0 .. 2^32 - 1. -/
abbrev Config.addrSpace : Nat := 2 ^ 32

/-- R4, R23: the register window is 256 bytes. -/
abbrev Config.regWindowBytes : Nat := 256

/-- FREE VALUE (log 10). R153, U7: each byte of the destination window of a command that reset abandons "holds an
unspecified value", and "a model treats every such byte as a fresh draw". The argument is the number of the draw
(`State.draws` and on); nothing constrains the value. -/
opaque Config.freeByte : Nat → Byte

end Sys2Proof
end

