-- ==== Sys2Proof/Syntax.lean ====
section
/-! DEFINITION. The commands of the engine, the names of its registers, the events at its three interfaces, and the host
notation (10_state.md R23, 30_encoding.md R64 to R76). -/

namespace Sys2Proof

/-- A decoded command (R71): one constructor per row of the opcode table. A mode bit that a command ignores does not
appear (R65, R71). -/
inductive Instr where
  /-- NOP (R89). -/
  | nop
  /-- PACK (R96). -/
  | pack
  /-- CONVERT (R103); `inBE` is the byte order written. -/
  | convert (inBE : Bool)
  /-- EXTRACT (R111); `inBE` is the byte order read, `outBE` the byte order written. -/
  | extract (inBE outBE : Bool)
  /-- RLE_ROW (R124); `inBE` is the byte order read. -/
  | rleRow (inBE : Bool)
  /-- RLE_GLOBAL (R132); `inBE` is the byte order read. -/
  | rleGlobal (inBE : Bool)
  deriving DecidableEq, Repr

/-- The six mnemonics of R64. -/
inductive Mnemonic where
  | nop
  | pack
  | convert
  | extract
  | rleRow
  | rleGlobal
  deriving DecidableEq, Repr

/-- The mnemonic of a decoded command. -/
def Instr.mnemonic : Instr → Mnemonic
  | .nop => .nop
  | .pack => .pack
  | .convert _ => .convert
  | .extract _ _ => .extract
  | .rleRow _ => .rleRow
  | .rleGlobal _ => .rleGlobal

/-- The thirteen registers of R23. -/
inductive Reg where
  | cmd
  | status
  | width
  | height
  | srcBase
  | srcStride
  | srcLen
  | dstBase
  | dstLen
  | dstStride
  | outLen
  | packIn
  | packOut
  deriving DecidableEq, Repr

/-- What happens next at the interfaces of R4. Each is one atomic event (R59). -/
inductive Event where
  /-- The host writes `data` to the register window at `offset`, in an access of `bits` bits (R25, R72 `WR`). -/
  | regWrite (bits offset : Nat) (data : Word)
  /-- The host reads the register window at `offset`, in an access of `bits` bits (R25, R72 `RD`). -/
  | regRead (bits offset : Nat)
  /-- The host writes one byte of memory (R72 `MW`, one event a byte). -/
  | memWrite (addr : Nat) (data : Byte)
  /-- The host reads one byte of memory (R72 `MR`, one event a byte). -/
  | memRead (addr : Nat)
  /-- It is the engine's turn: a running command completes now (R80, R164). -/
  | engine
  /-- The host polls STATUS until BUSY = 0 (R73 `WAIT`). -/
  | wait
  /-- The reset input is asserted (R152, R153). -/
  | resetAssert
  /-- The reset input is released (R152, R166). -/
  | resetRelease
  /-- The platform's `RESET_TO_ACCESS` has passed since the release (R166). -/
  | resetSettled
  deriving DecidableEq, Repr

/-- One line of a host program (R72, R73). -/
inductive HostStmt where
  | wr (reg : Reg) (value : Nat)
  | rd (reg : Reg)
  | mw (addr : Nat) (bytes : List Byte)
  | mr (addr count : Nat)
  /-- `CMD <op>[.BE][.OBE]`. -/
  | cmd (op : Mnemonic) (be obe : Bool)
  | wait
  /-- `CHECK`: a read of STATUS whose expected value the program states. -/
  | check (expected : Nat)
  deriving DecidableEq, Repr

end Sys2Proof
end

