-- ==== Sys2Proof/WellFormed.lean ====
section
/-! DEFINITION. Which command words, events and lines of a host program are inside the interface (10_state.md R25,
30_encoding.md R65, R66, R72, R73). -/

namespace Sys2Proof

/-- Every decoded command is well formed: R71's decoded forms carry Bool fields only, and the spec excludes no value of
them. -/
def Instr.wf : Instr → Bool
  | .nop | .pack | .convert _ | .extract _ _ | .rleRow _ | .rleGlobal _ => true

/-- A command word is legal when it is not illegal in the sense of R66. -/
def legalWord (w : Word) : Bool :=
  w.extractLsb' 6 26 == 0#26 && decide ((w.extractLsb' 0 4).toNat < 6)

/-- A register access inside the interface: 32 bits wide, at a multiple of 4 (R25), in the window (R4). -/
def regAccessWf (bits offset : Nat) : Bool :=
  decide (bits = 32) && decide (offset % 4 = 0) && decide (offset < Config.regWindowBytes)

/-- An event inside the interface. -/
def Event.wf : Event → Bool
  | .regWrite bits offset _ => regAccessWf bits offset
  | .regRead bits offset => regAccessWf bits offset
  | .memWrite addr _ => decide (addr < Config.addrSpace)
  | .memRead addr => decide (addr < Config.addrSpace)
  | .engine | .wait | .resetAssert | .resetRelease | .resetSettled => true

/-- R65: the commands that use IN_BE. -/
def Mnemonic.usesInBE : Mnemonic → Bool
  | .nop | .pack => false
  | .convert | .extract | .rleRow | .rleGlobal => true

/-- R65: the one command that uses OUT_BE. -/
def Mnemonic.usesOutBE : Mnemonic → Bool
  | .extract => true
  | .nop | .pack | .convert | .rleRow | .rleGlobal => false

/-- R72, R45: `<addr>` is below 2^32, and so is the address of each of the `count` bytes from it. -/
def byteRangeWf (addr count : Nat) : Bool :=
  decide (addr < Config.addrSpace) && decide (addr + count ≤ Config.addrSpace)

/-- R72: values and addresses are naturals below 2^32, the address of a line that names no byte too. R73: `.BE` and `.OBE` may be written only where R65 marks the bit
used. -/
def HostStmt.wf : HostStmt → Bool
  | .wr _ value => decide (value < 2 ^ 32)
  | .rd _ => true
  | .mw addr bytes => byteRangeWf addr bytes.length
  | .mr addr count => byteRangeWf addr count
  | .cmd op be obe => (!be || op.usesInBE) && (!obe || op.usesOutBE)
  | .wait => true
  | .check expected => decide (expected < 2 ^ 32)

end Sys2Proof
end

