-- ==== Sys2Proof/Decode.lean ====
section
/-! DEFINITION. Decoding a command word (30_encoding.md R63, R64, R71), the encoder written from the same tables, the
register offsets (R75) and the expansion of the host notation (R72, R73). -/

namespace Sys2Proof

/-- Why a word, or the bytes given for one, is no command. -/
inductive Reject where
  /-- R66: RSVD = cmd[31:6] ≠ 0. -/
  | reservedBits
  /-- R66: OP is one of 6 .. 15. -/
  | reservedOpcode
  /-- R70: a command word is exactly four bytes. -/
  | notOneWord
  deriving DecidableEq, Repr

/-- CMD.OP, bits 3:0 (R26, R63). -/
def cmdOp (w : Word) : Nat := (w.extractLsb' 0 4).toNat

/-- CMD.IN_BE, bit 4 (R26, R63). -/
def cmdInBE (w : Word) : Bool := w.getLsbD 4

/-- CMD.OUT_BE, bit 5 (R26, R63). -/
def cmdOutBE (w : Word) : Bool := w.getLsbD 5

/-- CMD.RSVD, bits 31:6 (R26, R63). -/
def cmdRsvd (w : Word) : BitVec 26 := w.extractLsb' 6 26

/-- R71: decoding is a total function on 32-bit words. -/
def decode (w : Word) : Except Reject Instr :=
  if cmdRsvd w ≠ 0#26 then .error .reservedBits
  else
    match cmdOp w with
    | 0 => .ok .nop
    | 1 => .ok .pack
    | 2 => .ok (.convert (cmdInBE w))
    | 3 => .ok (.extract (cmdInBE w) (cmdOutBE w))
    | 4 => .ok (.rleRow (cmdInBE w))
    | 5 => .ok (.rleGlobal (cmdInBE w))
    | _ => .error .reservedOpcode

/-- R25: bits 7:0 of a register are at the lowest byte offset. -/
def wordOfBytes (b0 b1 b2 b3 : Byte) : Word := b3 ++ b2 ++ b1 ++ b0

/-- R25: the four byte lanes of a register, lowest offset first. -/
def bytesOfWord (w : Word) : List Byte :=
  [w.extractLsb' 0 8, w.extractLsb' 8 8, w.extractLsb' 16 8, w.extractLsb' 24 8]

/-- Decoding of any bytes: R70, a command is one 32-bit word and nothing else. -/
def decodeBytes : List Byte → Except Reject Instr
  | [b0, b1, b2, b3] => decode (wordOfBytes b0 b1 b2 b3)
  | _ => .error .notOneWord

/-- R64: the opcode numbers. -/
def Mnemonic.opcode : Mnemonic → Nat
  | .nop => 0
  | .pack => 1
  | .convert => 2
  | .extract => 3
  | .rleRow => 4
  | .rleGlobal => 5

/-- R63, R73: the command word with the given fields and RSVD = 0. -/
def cmdWord (op : Mnemonic) (inBE outBE : Bool) : Word :=
  0#26 ++ BitVec.ofBool outBE ++ BitVec.ofBool inBE ++ BitVec.ofNat 4 op.opcode

/-- The word of a command, the bits it ignores 0 (R65, R74). -/
def encode : Instr → Word
  | .nop => cmdWord .nop false false
  | .pack => cmdWord .pack false false
  | .convert inBE => cmdWord .convert inBE false
  | .extract inBE outBE => cmdWord .extract inBE outBE
  | .rleRow inBE => cmdWord .rleRow inBE false
  | .rleGlobal inBE => cmdWord .rleGlobal inBE false

/-- R65: the bits of the command word that the command does not ignore. -/
def Instr.usedBits (i : Instr) : Word :=
  0x3FFFFFF#26 ++ BitVec.ofBool i.mnemonic.usesOutBE ++ BitVec.ofBool i.mnemonic.usesInBE ++ 0xF#4

/-- The command the decoder reads from an instruction of `nbits` bits, which are `w`: its four bytes in the order of R25,
given to `decodeBytes`; nothing shorter or longer than 32 bits is a command (R70, and every row of the opcode table is
32 bits). -/
def decodeTableWord (nbits w : Nat) : Option Instr :=
  if nbits = 32 then
    match decodeBytes (bytesOfWord (BitVec.ofNat 32 w)) with
    | .ok i => some i
    | .error _ => none
  else none

/-- R23, R75: the byte offset of each register. -/
def Reg.offset : Reg → Nat
  | .cmd => 0x00
  | .status => 0x04
  | .width => 0x08
  | .height => 0x0C
  | .srcBase => 0x10
  | .srcStride => 0x14
  | .srcLen => 0x18
  | .dstBase => 0x1C
  | .dstLen => 0x20
  | .dstStride => 0x24
  | .outLen => 0x28
  | .packIn => 0x2C
  | .packOut => 0x30

/-- R23, R75: the register at an offset; R24: none at the reserved offsets. -/
def Reg.ofOffset : Nat → Option Reg
  | 0x00 => some .cmd
  | 0x04 => some .status
  | 0x08 => some .width
  | 0x0C => some .height
  | 0x10 => some .srcBase
  | 0x14 => some .srcStride
  | 0x18 => some .srcLen
  | 0x1C => some .dstBase
  | 0x20 => some .dstLen
  | 0x24 => some .dstStride
  | 0x28 => some .outLen
  | 0x2C => some .packIn
  | 0x30 => some .packOut
  | _ => none

/-- The byte writes of `MW` (R72): the listed bytes at `addr`, `addr` + 1, ... -/
def memWrites (addr : Nat) : List Byte → List Event
  | [] => []
  | b :: bs => .memWrite addr b :: memWrites (addr + 1) bs

/-- R72, R73: the events of one line of a host program. `CHECK` is a read of STATUS; the value it states is the
program's, not the engine's. -/
def HostStmt.events : HostStmt → List Event
  | .wr reg value => [.regWrite 32 reg.offset (BitVec.ofNat 32 value)]
  | .rd reg => [.regRead 32 reg.offset]
  | .mw addr bytes => memWrites addr bytes
  | .mr addr count => (List.range count).map fun k => .memRead (addr + k)
  | .cmd op be obe => [.regWrite 32 Reg.cmd.offset (cmdWord op be obe)]
  | .wait => [.wait]
  | .check _ => [.regRead 32 Reg.status.offset]

/-- R21, R72: a program is a sequence of host accesses. -/
def programEvents (program : List HostStmt) : List Event := program.flatMap HostStmt.events

end Sys2Proof
end

