-- ==== Sys2Proof/Machine/State.lean ====
section
/-! DEFINITION. The state of the engine (10_state.md R20 to R44, 20_memory.md R45), its state right after reset
(70_reset_and_hazards.md R152), and the names of what can stop a run. -/

namespace Sys2Proof.Machine

/-- The memory of R45: the listed bytes, addresses strictly rising, no entry equal to what an unlisted address reads as
(`Memory.wf`). -/
abbrev Memory := List Host.Cell

/-- The operand registers of R23 that are RW and that a command latches (R77 `Regs`). -/
structure Regs where
  width : Word
  height : Word
  srcBase : Word
  srcStride : Word
  srcLen : Word
  dstBase : Word
  dstLen : Word
  packIn : Word
  deriving DecidableEq, Repr

/-- R44: the engine is idle or runs a command; STATUS.BUSY mirrors it (R28). -/
inductive Phase where
  | idle
  | busy
  deriving DecidableEq, Repr

/-- The outcomes of R137. -/
inductive ErrCode where
  | ok
  | illegal
  | malformed
  | range
  | overlap
  | overflow
  deriving DecidableEq, Repr

/-- The run accumulator of R44 and R119. -/
structure RleAcc where
  hasPending : Bool
  pendingValue : Half
  pendingRun : Nat
  deriving DecidableEq, Repr

/-- The reset input, and whether the platform's `RESET_TO_ACCESS` has passed since its release (R152, R166, log 11). -/
inductive ResetLine where
  /-- The reset input is asserted. -/
  | asserted
  /-- Released, but register accesses are not accepted yet. -/
  | settling
  /-- Released, and register accesses are accepted. -/
  | ready
  deriving DecidableEq, Repr

/-- A range of byte addresses `[base, base + len)`, in exact arithmetic (R6, R51). -/
structure Window where
  base : Nat
  len : Nat
  deriving DecidableEq, Repr

/-- What the platform fixes and the engine never changes (R5 `REG_BASE`, R43, R56, R57, U15, log 4). -/
structure Platform where
  /-- R5, R23: the address of the register window on the host's bus. -/
  regBase : Nat
  /-- R56, R57: ranges that are no ordinary memory, device registers or nothing at all. -/
  notMemory : List Window
  /-- U15: the engine's memory port sees the register window through the bus. R43: where it does not, the engine's
  accesses there go to memory (log 6). -/
  engineSeesRegs : Bool
  deriving DecidableEq, Repr

/-- What a read returns to the host (R72 `RD`, `MR`). -/
inductive Reply where
  | reg (value : Word)
  | byte (value : Byte)
  deriving DecidableEq, Repr

/-- Everything the spec gives the engine, and the model's own inputs and marks (INVENTORY.md, "State"). -/
structure State where
  /-- CMD (R26): the last accepted word, and the hidden `cmd` of R44. -/
  cmd : Word
  /-- STATUS.BUSY and the hidden `phase` (R28, R44). -/
  phase : Phase
  /-- STATUS.DONE (R29). -/
  done : Bool
  /-- STATUS.ERR (R30). -/
  err : ErrCode
  /-- STATUS.DROPPED (R31). -/
  dropped : Bool
  /-- WIDTH, HEIGHT, SRC_BASE, SRC_STRIDE, SRC_LEN, DST_BASE, DST_LEN, PACK_IN (R32 to R38, R41). -/
  regs : Regs
  /-- DST_STRIDE (R39). -/
  dstStride : Word
  /-- OUT_LEN (R40). -/
  outLen : Word
  /-- PACK_OUT (R42), the 16 bits it holds. -/
  packOut : Half
  /-- The operands latched at acceptance (R77 `Regs`). -/
  latched : Regs
  /-- The memory as it was at acceptance (R54 `Snap`). -/
  snap : Memory
  /-- The run accumulator (R44, R119). -/
  acc : RleAcc
  /-- The reset input (R152, R166). -/
  resetLine : ResetLine
  /-- The memory shared with the host (R45). -/
  mem : Memory
  /-- Destination windows of completed commands that no STATUS read has shown complete yet (R59, R158, log 9). -/
  unacked : List Window
  /-- The platform (log 4). -/
  platform : Platform
  /-- How many free bytes have been drawn (log 10). -/
  draws : Nat
  /-- What happens next at the interfaces, oldest first (log 1). -/
  events : List Event
  /-- What the host's reads have returned, newest first (log 15). -/
  replies : List Reply
  deriving DecidableEq, Repr

/-- What stops a run as a fault. -/
inductive Fault where
  /-- R59, R158, R163, U8: the host reads a destination window before a STATUS read has shown the command complete.
  Raised by `hostMemRead`. Safe: the hardware goes on with an unspecified value. -/
  | hazardDestRead
  /-- R158, R163, U9: the host writes a destination window before a STATUS read has shown the command complete. Raised
  by `hostMemWrite`. Safe: the hardware goes on. -/
  | hazardDestWrite
  /-- R159, R163, U10: the host writes the running command's source window. Raised by `hostMemWrite`. Safe: the
  hardware goes on. -/
  | hazardSourceWrite
  /-- R45: the memory has addresses 0 .. 2^32 - 1 and the host names another. Raised by `hostMemRead` and
  `hostMemWrite`. Safe: no such access exists. -/
  | noSuchAddress
  deriving DecidableEq, Repr

/-- What the model gives no meaning. -/
inductive Refusal where
  /-- An instruction without a meaning yet, by its mnemonic. Raised by `exec` only. Safe. -/
  | notModelled (mnemonic : String)
  /-- R25, U13: a register access of a width other than 32 bits. Raised by `regAccess`. Safe. -/
  | registerWidth
  /-- R25, U13: a register access at an offset that is no multiple of 4. Raised by `regAccess`. Safe. -/
  | registerAlignment
  /-- R4: an offset outside 0x00 .. 0xFF is no register access of the engine (log 16). Raised by `regAccess`. Safe. -/
  | registerOffset
  /-- R166, U14: a register access while reset is asserted or within `RESET_TO_ACCESS` of its release. Raised by
  `regAccess`. Safe. -/
  | accessDuringReset
  /-- R56, R57, U15: a window of a memory command is not ordinary memory (log 5), or touches the register window seen
  through the bus (log 6). Raised by `State.runMemory`. Safe. -/
  | windowNotMemory
  /-- R25, U13: a byte access of the host inside the register window (log 7). Raised by `memAccess`. Safe. -/
  | byteAccessToRegisters
  /-- R57, U15: a host access to an address that is not ordinary memory (log 7). Raised by `memAccess`. Safe. -/
  | hostAccessNotMemory
  deriving DecidableEq, Repr

/-- Every operand register at the reset value of R23. -/
def Regs.reset : Regs := ⟨0, 0, 0, 0, 0, 0, 0, 0⟩

/-- R119 `init`: no pending run. The two other fields are unused then; 0 and 1 are a DESIGN CHOICE (log 12). -/
def RleAcc.init : RleAcc := ⟨false, 0, 1⟩

/-- DESIGN CHOICE (log 4): the platform of `State.reset`. `REG_BASE` is OPEN in the spec; the register window is seen
through the bus, so U15 refuses an engine window there (log 6). -/
def Platform.default : Platform := ⟨0xF0000000, [], true⟩

/-- R152, R155: the engine right after reset, able to accept a CMD write. Every register is 0 (R23). The fields the spec
gives no reset value are named in log 3, 4, 9, 10, 11, 12 and 15. -/
def State.reset : State where
  cmd := 0
  phase := .idle
  done := false
  err := .ok
  dropped := false
  regs := Regs.reset
  dstStride := 0
  outLen := 0
  packOut := 0
  latched := Regs.reset
  snap := []
  acc := RleAcc.init
  resetLine := .ready
  mem := []
  unacked := []
  platform := Platform.default
  draws := 0
  events := []
  replies := []

end Sys2Proof.Machine
end

