-- ==== Sys2Proof/Machine/Params.lean ====
section
/-! DEFINITION. The implementation parameters of 00_scope.md R5 that the commands compute with (log 19). -/

namespace Sys2Proof.Machine

/-- R5 `SRC_BPP`: bytes per source pixel. -/
def srcBpp : Nat := 4

/-- R5 `PIX_BYTES`: bytes per RGB565 pixel. -/
def pixBytes : Nat := 2

/-- R5 `RUN_MAX`: the largest run length. -/
def runMax : Nat := 65535

/-- R69: bytes per pixel of a memory command's input buffer; NOP and PACK have none. -/
def bpp : Instr → Option Nat
  | .nop | .pack => none
  | .convert _ => some srcBpp
  | .extract _ _ | .rleRow _ | .rleGlobal _ => some pixBytes

end Sys2Proof.Machine
end

