-- ==== Sys2Proof/Machine/Operands.lean ====
section
/-! DEFINITION. Operand forms: byte sequences of 16-bit words (00_scope.md R8), pixel offsets (R12), windows
(20_memory.md R51), and the operand registers by name (10_state.md R23). -/

namespace Sys2Proof.Machine

/-- R8 `le16`: low byte first. -/
def le16 (v : Half) : List Byte := [v.extractLsb' 0 8, v.extractLsb' 8 8]

/-- R8 `be16`: high byte first. -/
def be16 (v : Half) : List Byte := [v.extractLsb' 8 8, v.extractLsb' 0 8]

/-- R8 `word`. -/
def word (be : Bool) (v : Half) : List Byte := if be then be16 v else le16 v

/-- R8 `rd16`: the value of two consecutive bytes, `b0` at the lower address. -/
def rd16 (be : Bool) (b0 b1 : Byte) : Half :=
  if be then (b0.setWidth 16 <<< 8) ||| b1.setWidth 16 else b0.setWidth 16 ||| (b1.setWidth 16 <<< 8)

/-- R12: the address of pixel (x, y) of a buffer. -/
def pixelAddr (base stride bytesPerPixel x y : Nat) : Nat := base + y * stride + x * bytesPerPixel

/-- R51: the address lies in the window. -/
def Window.contains (w : Window) (a : Nat) : Bool := decide (w.base ≤ a) && decide (a < w.base + w.len)

/-- R51: both are non-empty and each starts before the other ends. -/
def Window.overlaps (v w : Window) : Bool :=
  decide (0 < v.len) && decide (0 < w.len) && decide (v.base < w.base + w.len) && decide (w.base < v.base + v.len)

/-- R51: the source window `SW`. -/
def Regs.srcWindow (r : Regs) : Window := ⟨r.srcBase.toNat, r.srcLen.toNat⟩

/-- R51: the destination window `DW`. -/
def Regs.dstWindow (r : Regs) : Window := ⟨r.dstBase.toNat, r.dstLen.toNat⟩

/-- R4, R23: the register window on the host's bus. -/
def Platform.regWindow (p : Platform) : Window := ⟨p.regBase, Config.regWindowBytes⟩

/-- R56, R57: no address of the window is a device register or unbacked. -/
def Platform.ordinary (p : Platform) (w : Window) : Bool := p.notMemory.all fun r => !r.overlaps w

/-- R56, R57, U15: an engine window is ordinary memory: no device register and nothing unbacked is in it, and it does not
touch the register window where that is seen through the bus (log 6). R43: where it is not seen, memory is there. -/
def Platform.engineOrdinary (p : Platform) (w : Window) : Bool :=
  p.ordinary w && !(p.engineSeesRegs && p.regWindow.overlaps w)

/-- R23: the operand register of a name; none for CMD and the RO registers. -/
def Regs.get? (r : Regs) : Reg → Option Word
  | .width => some r.width
  | .height => some r.height
  | .srcBase => some r.srcBase
  | .srcStride => some r.srcStride
  | .srcLen => some r.srcLen
  | .dstBase => some r.dstBase
  | .dstLen => some r.dstLen
  | .packIn => some r.packIn
  | .cmd | .status | .dstStride | .outLen | .packOut => none

/-- R23: writing an operand register; CMD and the RO registers are no operand registers. -/
def Regs.set (r : Regs) (v : Word) : Reg → Regs
  | .width => { r with width := v }
  | .height => { r with height := v }
  | .srcBase => { r with srcBase := v }
  | .srcStride => { r with srcStride := v }
  | .srcLen => { r with srcLen := v }
  | .dstBase => { r with dstBase := v }
  | .dstLen => { r with dstLen := v }
  | .packIn => { r with packIn := v }
  | .cmd | .status | .dstStride | .outLen | .packOut => r

end Sys2Proof.Machine
end

