-- ==== Sys2Proof/Machine/Flags.lean ====
section
/-! DEFINITION. STATUS and the values the command lifecycle writes (10_state.md R27 to R31, 60_exceptions.md R137,
40_command.md R81 to R88). -/

namespace Sys2Proof.Machine

/-- R137: the error codes. -/
def ErrCode.code : ErrCode → BitVec 4
  | .ok => 0
  | .illegal => 1
  | .malformed => 2
  | .range => 3
  | .overlap => 4
  | .overflow => 5

/-- R27: STATUS as a word: DROPPED in bit 8, ERR in bits 7:4, DONE in bit 1, BUSY in bit 0, the reserved bits 0. -/
def statusWord (busy done : Bool) (err : ErrCode) (dropped : Bool) : Word :=
  0#23 ++ BitVec.ofBool dropped ++ err.code ++ 0#2 ++ BitVec.ofBool done ++ BitVec.ofBool busy

/-- R28: STATUS.BUSY. -/
def Phase.isBusy : Phase → Bool
  | .idle => false
  | .busy => true

/-- The STATUS register (R27). -/
def State.status (s : State) : Word := statusWord s.phase.isBusy s.done s.err s.dropped

/-- R88: `sat32`. -/
def sat32 (n : Nat) : Word := BitVec.ofNat 32 (min n (2 ^ 32 - 1))

/-- R82 to R85: the checks of a memory command that need no memory, in the order of R141; the first that fails. -/
def checkOperands (bytesPerPixel : Nat) (r : Regs) : Option ErrCode :=
  if r.srcStride.toNat < r.width.toNat * bytesPerPixel then some .malformed
  else if r.srcLen.toNat < r.srcStride.toNat * r.height.toNat then some .malformed
  else if Config.addrSpace < r.srcBase.toNat + r.srcLen.toNat
      ∨ Config.addrSpace < r.dstBase.toNat + r.dstLen.toNat then some .range
  else if r.srcWindow.overlaps r.dstWindow then some .overlap
  else none

end Sys2Proof.Machine
end

