-- ==== Sys2Proof/Machine/Ops.lean ====
section
/-! DEFINITION. The shared operations over memory (00_scope.md R10) and over the state: acceptance (40_command.md R77),
completion (R80), ending with an error (00_scope.md R11), the run of a memory command (R87), and reset
(70_reset_and_hazards.md R152, R153). The engine has no trap (60_exceptions.md R143): `State.raise` is its one way to
report an error. -/

namespace Sys2Proof.Machine

/-- DESIGN CHOICE (log 3): what an unlisted address reads as. Any memory of 2^32 bytes is some list, so a statement
about every state is a statement about every launch memory (R45, U6). -/
def Memory.unlisted : Byte := 0

/-- The canonical form: addresses strictly rising and below 2^32, no entry equal to what an unlisted address reads
as. -/
abbrev Memory.wf (m : Memory) : Prop :=
  m.Pairwise (fun c d => c.1 < d.1) ∧ ∀ c ∈ m, c.1 < Config.addrSpace ∧ c.2 ≠ Memory.unlisted

/-- R10 `MemRead(a, 1)`. -/
def Memory.read : Memory → Nat → Byte
  | [], _ => Memory.unlisted
  | (k, v) :: m, a => if k = a then v else Memory.read m a

/-- One more cell before a list whose addresses are all larger; none for a byte that an unlisted address reads as. -/
def Memory.consCell (a : Nat) (b : Byte) (m : Memory) : Memory := if b = Memory.unlisted then m else (a, b) :: m

/-- R10 `MemWrite(a, 1, b)`, keeping the canonical form. -/
def Memory.write : Memory → Nat → Byte → Memory
  | [], a, b => Memory.consCell a b []
  | (k, v) :: m, a, b =>
    if a < k then Memory.consCell a b ((k, v) :: m)
    else if a = k then Memory.consCell a b m
    else (k, v) :: Memory.write m a b

/-- R10 `MemWrite(a, n, s)`: the bytes of `s` at `a`, `a` + 1, ... -/
def Memory.writeBytes : Memory → Nat → List Byte → Memory
  | m, _, [] => m
  | m, a, b :: bs => Memory.writeBytes (Memory.write m a b) (a + 1) bs

/-- R77: a write of `w` to CMD is accepted. -/
def State.accept (s : State) (w : Word) : State :=
  { s with
    cmd := w
    phase := .busy
    done := false
    err := .ok
    dropped := false
    snap := s.mem
    latched := s.regs }

/-- R31, R78: a write that arrives while BUSY = 1 is ignored and shown in DROPPED. -/
def State.drop (s : State) : State := { s with dropped := true }

/-- R80: STATUS at completion with outcome `e`; DROPPED stays. The host may not touch the destination window until a
STATUS read shows the completion (R59, R158, log 8, log 9). -/
def State.complete (s : State) (e : ErrCode) : State :=
  { s with
    phase := .idle
    done := true
    err := e
    unacked := s.latched.dstWindow :: s.unacked }

/-- R11, R80: `raise e` in a memory command: OUT_LEN is 0, nothing else but STATUS changes. -/
def State.raise (s : State) (e : ErrCode) : State := State.complete { s with outLen := 0 } e

/-- R56, R57, U15 (log 5, log 6): both windows of the running command are ordinary memory. -/
def State.windowsOrdinary (s : State) : Bool :=
  s.platform.engineOrdinary s.latched.srcWindow && s.platform.engineOrdinary s.latched.dstWindow

/-- R87 from its line `bpp = ...` on: a memory command with input pixels of `bytesPerPixel` bytes, output length `len`,
output sequence `out` and new value `stride` of DST_STRIDE (R80). `len` is `|out|` (R79); it stands apart so that an
output that does not fit is never built (log 18). -/
def State.runMemory (bytesPerPixel : Nat) (len : Regs → Memory → Nat) (out : Regs → Memory → List Byte)
    (stride : Regs → Word → Word) (s : State) : Host.Outcome State Fault Refusal :=
  match checkOperands bytesPerPixel s.latched with
  | some e => .next (s.raise e)
  | none =>
    if s.windowsOrdinary then
      let n := len s.latched s.snap
      if s.latched.dstLen.toNat < n then
        .next (State.complete
          { s with
            outLen := sat32 n
            dstStride := stride s.latched s.dstStride } .overflow)
      else
        .next (State.complete
          { s with
            mem := if n = 0 then s.mem else s.mem.writeBytes s.latched.dstBase.toNat (out s.latched s.snap)
            outLen := BitVec.ofNat 32 n
            dstStride := stride s.latched s.dstStride } .ok)
    else .refused .windowNotMemory

/-- R80: EXTRACT, RLE_ROW and RLE_GLOBAL leave DST_STRIDE unchanged. -/
def keepStride (_ : Regs) (old : Word) : Word := old

/-- R153: each byte of the window holds a fresh free value, the first of them draw number `draw`; addresses from 2^32 on
do not exist (R45). -/
def Memory.scramble (m : Memory) (w : Window) (draw : Nat) : Memory :=
  m.writeBytes w.base ((List.range (min w.len (Config.addrSpace - w.base))).map fun k => Config.freeByte (draw + k))

/-- R152, R153, R154: reset is asserted. Every register takes its reset value. A running command is abandoned and its
destination window becomes unspecified; memory does not change otherwise. The hidden state after reset is log 12. DESIGN CHOICE (log 9): the hazard on the abandoned
command's destination window ends here, with the draws of R153, and no mark of it stays in `unacked`; R158 ends a hazard
only when the host reads STATUS with BUSY = 0 and does not speak of reset. -/
def State.assertReset (s : State) : State :=
  { s with
    cmd := 0
    phase := .idle
    done := false
    err := .ok
    dropped := false
    regs := Regs.reset
    dstStride := 0
    outLen := 0
    packOut := 0
    latched := Regs.reset
    snap := []
    acc := RleAcc.init
    resetLine := .asserted
    mem := if s.phase.isBusy then s.mem.scramble s.latched.dstWindow s.draws else s.mem
    draws := if s.phase.isBusy then s.draws + s.latched.dstLen.toNat else s.draws }

/-- R152, R166: reset is released; a line that is not asserted stays as it is. -/
def State.releaseReset (s : State) : State :=
  { s with resetLine := if s.resetLine = .asserted then .settling else s.resetLine }

/-- R166: `RESET_TO_ACCESS` has passed since the release. -/
def State.settleReset (s : State) : State :=
  { s with resetLine := if s.resetLine = .settling then .ready else s.resetLine }

end Sys2Proof.Machine
end

