-- ==== Sys2Proof/Machine/ColorPacker.lean ====
section
/-! DEFINITION. The Color Packer and PACK (41_color_packer.md). -/

namespace Sys2Proof.Machine

/-- R93: `((R >> 3) << 11) | ((G >> 2) << 5) | (B >> 3)`. -/
def pack565 (r g b : Byte) : Half :=
  ((r >>> 3).setWidth 16 <<< 11) ||| ((g >>> 2).setWidth 16 <<< 5) ||| (b >>> 3).setWidth 16

/-- R41: PACK_IN.B. -/
def packInB (w : Word) : Byte := w.extractLsb' 0 8

/-- R41: PACK_IN.G. -/
def packInG (w : Word) : Byte := w.extractLsb' 8 8

/-- R41: PACK_IN.R. -/
def packInR (w : Word) : Byte := w.extractLsb' 16 8

/-- R96: the value PACK computes from PACK_IN; PACK_IN.A is ignored (R95). -/
def packWord (w : Word) : Half := pack565 (packInR w) (packInG w) (packInB w)

/-- PACK (R96). -/
def execPack (s : State) : Host.Outcome State Fault Refusal :=
  .next (State.complete { s with packOut := packWord s.latched.packIn } .ok)

end Sys2Proof.Machine
end

