-- ==== Sys2Proof/Machine/HostPort.lean ====
section
/-! DEFINITION. The host's side: register accesses (10_state.md R23 to R31, 40_command.md R77, R78), byte accesses to
memory with the hazards of 70_reset_and_hazards.md R158, R159 and R163, and the reset events. -/

namespace Sys2Proof.Machine

/-- R4, R25, R166: what puts a register access outside the interface. -/
def regAccess (s : State) (bits offset : Nat) : Option Refusal :=
  if s.resetLine ≠ .ready then some .accessDuringReset
  else if bits ≠ 32 then some .registerWidth
  else if offset % 4 ≠ 0 then some .registerAlignment
  else if Config.regWindowBytes ≤ offset then some .registerOffset
  else none

/-- R23: the current value of a register. -/
def State.readReg (s : State) : Reg → Word
  | .cmd => s.cmd
  | .status => s.status
  | .width => s.regs.width
  | .height => s.regs.height
  | .srcBase => s.regs.srcBase
  | .srcStride => s.regs.srcStride
  | .srcLen => s.regs.srcLen
  | .dstBase => s.regs.dstBase
  | .dstLen => s.regs.dstLen
  | .dstStride => s.dstStride
  | .outLen => s.outLen
  | .packIn => s.regs.packIn
  | .packOut => s.packOut.setWidth 32

/-- R23, R24: the value read at an offset of the window; reserved offsets read 0. -/
def State.readOffset (s : State) (offset : Nat) : Word :=
  match Reg.ofOffset offset with
  | some r => s.readReg r
  | none => 0

/-- R23: the access column; RO registers and reserved offsets ignore every write. -/
def regWritable : Reg → Bool
  | .cmd | .width | .height | .srcBase | .srcStride | .srcLen | .dstBase | .dstLen | .packIn => true
  | .status | .dstStride | .outLen | .packOut => false

/-- R23, R77, R78: the effect of a 32-bit write. While BUSY = 1 a write to CMD or an RW register is dropped; a write to
an RO register or a reserved offset has no effect at any time. -/
def State.writeOffset (s : State) (offset : Nat) (v : Word) : State :=
  match Reg.ofOffset offset with
  | none => s
  | some r =>
    if regWritable r then
      if s.phase.isBusy then s.drop
      else if r = .cmd then s.accept v
      else { s with regs := s.regs.set v r }
    else s

/-- R59, R158: a read of STATUS that shows BUSY = 0 ends the hazard on every completed command's destination window.
DESIGN CHOICE (log 9): it ends it for every host agent. With several of them (R149) R59 orders the read before later
reads "in host program order" and R158 says "the host", so the spec does not say whether one agent's read ends the hazard
for another; the engine does not tell the agents apart, and neither does the model. -/
def State.acknowledge (s : State) (offset : Nat) : State :=
  if offset = Reg.status.offset ∧ s.phase = .idle then { s with unacked := [] } else s

/-- R72 `WR`: a register write. -/
def hostRegWrite (bits offset : Nat) (v : Word) (s : State) : Host.Outcome State Fault Refusal :=
  match regAccess s bits offset with
  | some r => .refused r
  | none => .next (s.writeOffset offset v)

/-- R72 `RD`: a register read. Reading has no effect on the engine (R78); the host gets the value, and a STATUS read may
end a hazard. -/
def hostRegRead (bits offset : Nat) (s : State) : Host.Outcome State Fault Refusal :=
  match regAccess s bits offset with
  | some r => .refused r
  | none => .next { s.acknowledge offset with replies := .reg (s.readOffset offset) :: s.replies }

/-- R45, R25, R57: what puts a host access to one byte of memory outside memory. -/
def memAccess (s : State) (addr : Nat) : Option (Host.Outcome State Fault Refusal) :=
  if Config.addrSpace ≤ addr then some (.fault .noSuchAddress)
  else if s.platform.regWindow.contains addr then some (.refused .byteAccessToRegisters)
  else if !s.platform.ordinary ⟨addr, 1⟩ then some (.refused .hostAccessNotMemory)
  else none

/-- R59, R158 (log 8, log 9): the address lies in a destination window whose command no STATUS read has shown
complete. -/
def State.destHazard (s : State) (addr : Nat) : Bool :=
  (s.phase.isBusy && s.latched.dstWindow.contains addr) || s.unacked.any fun w => w.contains addr

/-- R159: the address lies in the running command's source window. -/
def State.sourceHazard (s : State) (addr : Nat) : Bool := s.phase.isBusy && s.latched.srcWindow.contains addr

/-- R72 `MR`: the host reads a byte of memory. -/
def hostMemRead (addr : Nat) (s : State) : Host.Outcome State Fault Refusal :=
  match memAccess s addr with
  | some o => o
  | none =>
    if s.destHazard addr then .fault .hazardDestRead
    else .next { s with replies := .byte (s.mem.read addr) :: s.replies }

/-- R72 `MW`: the host writes a byte of memory. -/
def hostMemWrite (addr : Nat) (b : Byte) (s : State) : Host.Outcome State Fault Refusal :=
  match memAccess s addr with
  | some o => o
  | none =>
    if s.destHazard addr then .fault .hazardDestWrite
    else if s.sourceHazard addr then .fault .hazardSourceWrite
    else .next { s with mem := s.mem.write addr b }

/-- The end of `WAIT` (R73): the read of STATUS that shows BUSY = 0. -/
def hostWaitDone (s : State) : Host.Outcome State Fault Refusal := hostRegRead 32 Reg.status.offset s

end Sys2Proof.Machine
end

