-- ==== Sys2Proof/Machine/Command.lean ====
section
/-! DEFINITION. NOP and the completion of an illegal word (40_command.md R81, R89, 30_encoding.md R66). -/

namespace Sys2Proof.Machine

/-- NOP (R89): `complete OK`. -/
def execNop (s : State) : Host.Outcome State Fault Refusal := .next (s.complete .ok)

/-- R66, R81: an illegal word completes as ILLEGAL and changes nothing but STATUS. -/
def completeIllegal (s : State) : Host.Outcome State Fault Refusal := .next (s.complete .illegal)

end Sys2Proof.Machine
end

