-- ==== Sys2Proof/Machine/Converter.lean ====
section
/-! DEFINITION. The Pixel Buffer Converter and CONVERT (42_pixel_buffer_converter.md). -/

namespace Sys2Proof.Machine

/-- R100: the destination row stride for a width. -/
def destStride (w : Nat) : Nat := (w * 16 + 31) / 32 * 4

/-- R46, R102: the value of the source pixel at address `o`: B, G and R at +0, +1 and +2; the alpha byte is not read. -/
def sourcePixel (m : Memory) (o : Nat) : Half := pack565 (m.read (o + 2)) (m.read (o + 1)) (m.read o)

/-- R102 `pixelBytes(x, y)`. -/
def pixelBytes (be : Bool) (r : Regs) (m : Memory) (x y : Nat) : List Byte :=
  word be (sourcePixel m (pixelAddr r.srcBase.toNat r.srcStride.toNat srcBpp x y))

/-- R102 `row(y)`: the pixels of a row, then its padding of 0x00. -/
def convertRow (be : Bool) (r : Regs) (m : Memory) (y : Nat) : List Byte :=
  ((List.range r.width.toNat).flatMap fun x => pixelBytes be r m x y)
    ++ List.replicate (destStride r.width.toNat - pixBytes * r.width.toNat) 0

/-- R102 `Out_CONVERT`. -/
def outConvert (be : Bool) (r : Regs) (m : Memory) : List Byte :=
  (List.range r.height.toNat).flatMap fun y => convertRow be r m y

/-- R103, R104: `L = destStride(W) * H`. -/
def lenConvert (r : Regs) (_ : Memory) : Nat := destStride r.width.toNat * r.height.toNat

/-- R80, R101: the value CONVERT gives DST_STRIDE on OK and OVERFLOW. -/
def convertStride (r : Regs) (_ : Word) : Word := BitVec.ofNat 32 (destStride r.width.toNat)

/-- CONVERT (R103). -/
def execConvert (inBE : Bool) (s : State) : Host.Outcome State Fault Refusal :=
  s.runMemory srcBpp lenConvert (outConvert inBE) convertStride

end Sys2Proof.Machine
end

