-- ==== Sys2Proof/Machine/Extractor.lean ====
section
/-! DEFINITION. The Word Extractor and EXTRACT (43_word_extractor.md). -/

namespace Sys2Proof.Machine

/-- R110 `pix(x, y)`: the value of a pixel of the RGB565 buffer, reassembled in the order IN_BE. -/
def pix (inBE : Bool) (r : Regs) (m : Memory) (x y : Nat) : Half :=
  let o := pixelAddr r.srcBase.toNat r.srcStride.toNat pixBytes x y
  rd16 inBE (m.read o) (m.read (o + 1))

/-- R123 `rowVals(y)`. -/
def rowVals (inBE : Bool) (r : Regs) (m : Memory) (y : Nat) : List Half :=
  (List.range r.width.toNat).map fun x => pix inBE r m x y

/-- R110 `flat`: the pixels in row-major order, padding removed. -/
def flat (inBE : Bool) (r : Regs) (m : Memory) : List Half :=
  (List.range r.height.toNat).flatMap fun y => rowVals inBE r m y

/-- R110 `Out_EXTRACT`. -/
def outExtract (inBE outBE : Bool) (r : Regs) (m : Memory) : List Byte := (flat inBE r m).flatMap (word outBE)

/-- R111: `L = 2*W*H`. -/
def lenExtract (r : Regs) (_ : Memory) : Nat := pixBytes * r.width.toNat * r.height.toNat

/-- EXTRACT (R111). -/
def execExtract (inBE outBE : Bool) (s : State) : Host.Outcome State Fault Refusal :=
  s.runMemory pixBytes lenExtract (outExtract inBE outBE) keepStride

end Sys2Proof.Machine
end

