-- ==== Sys2Proof/Machine/RunLength.lean ====
section
/-! DEFINITION. The run fold and its wire forms, shared by RLE_ROW and RLE_GLOBAL (44_rle_row.md R118 to R120). -/

namespace Sys2Proof.Machine

/-- A run token (R118): `run` copies of `value`. -/
structure Token where
  run : Nat
  value : Half
  deriving DecidableEq, Repr

/-- R119 `step`: one pixel value. -/
def stepRun (a : RleAcc) (v : Half) : RleAcc × List Token :=
  if a.hasPending = true ∧ v = a.pendingValue ∧ a.pendingRun < runMax then (⟨true, v, a.pendingRun + 1⟩, [])
  else if a.hasPending = true then (⟨true, v, 1⟩, [⟨a.pendingRun, a.pendingValue⟩])
  else (⟨true, v, 1⟩, [])

/-- R119 `flush`. -/
def flushRun (a : RleAcc) : List Token := if a.hasPending = true then [⟨a.pendingRun, a.pendingValue⟩] else []

/-- R120: the fold of `step` over a value sequence: the final accumulator and the tokens emitted. -/
def foldRuns : RleAcc → List Half → RleAcc × List Token
  | a, [] => (a, [])
  | a, v :: vs =>
    let r := foldRuns (stepRun a v).1 vs
    (r.1, (stepRun a v).2 ++ r.2)

/-- R120 `runs(seq)`. -/
def runs (seq : List Half) : List Token :=
  let r := foldRuns RleAcc.init seq
  r.2 ++ flushRun r.1

/-- R118 `tok`. -/
def tok (t : Token) : List Byte := le16 (BitVec.ofNat 16 t.run) ++ le16 t.value

/-- R118 `marker`. -/
def marker : List Byte := le16 0

/-- R118 `header(W, H)`: the low 16 bits of each. -/
def header (w h : Nat) : List Byte := le16 (BitVec.ofNat 16 w) ++ le16 (BitVec.ofNat 16 h)

/-- R44, R119: the accumulator after folding a sequence from `init`. -/
def accAfter (seq : List Half) : RleAcc := (foldRuns RleAcc.init seq).1

end Sys2Proof.Machine
end

