-- ==== Sys2Proof/Machine/RleGlobal.lean ====
section
/-! DEFINITION. The global run-length encoder and RLE_GLOBAL (45_rle_global.md). -/

namespace Sys2Proof.Machine

/-- R131, R133: the tokens of the whole image, one accumulator over all rows. -/
def globalTokens (inBE : Bool) (r : Regs) (m : Memory) : List Token := runs (flat inBE r m)

/-- R131 `Out_RLE_GLOBAL`. -/
def outRleGlobal (inBE : Bool) (r : Regs) (m : Memory) : List Byte := (globalTokens inBE r m).flatMap tok

/-- R131: `L = 4 * |runs(flat)|`; R134: with no column, `L = 0` (log 18). -/
def lenRleGlobal (inBE : Bool) (r : Regs) (m : Memory) : Nat :=
  if r.width.toNat = 0 then 0 else 4 * (globalTokens inBE r m).length

/-- R44, R133: the accumulator RLE_GLOBAL leaves: that of the whole image, or `init` where it encodes nothing
(log 13). -/
def accRleGlobal (inBE : Bool) (r : Regs) (m : Memory) : RleAcc :=
  match checkOperands pixBytes r with
  | some _ => RleAcc.init
  | none => if r.width.toNat = 0 then RleAcc.init else accAfter (flat inBE r m)

/-- RLE_GLOBAL (R132). -/
def execRleGlobal (inBE : Bool) (s : State) : Host.Outcome State Fault Refusal :=
  State.runMemory pixBytes (lenRleGlobal inBE) (outRleGlobal inBE) keepStride
    { s with acc := accRleGlobal inBE s.latched s.snap }

end Sys2Proof.Machine
end

