-- ==== Sys2Proof/Machine/RleRow.lean ====
section
/-! DEFINITION. The row-scoped run-length encoder and RLE_ROW (44_rle_row.md). -/

namespace Sys2Proof.Machine

/-- R123: the tokens of row `y`, from a fresh accumulator (R122). -/
def rowTokens (inBE : Bool) (r : Regs) (m : Memory) (y : Nat) : List Token := runs (rowVals inBE r m y)

/-- R123: the bytes of row `y`: its tokens, then a marker. -/
def rowStream (inBE : Bool) (r : Regs) (m : Memory) (y : Nat) : List Byte :=
  (rowTokens inBE r m y).flatMap tok ++ marker

/-- R123 `Out_RLE_ROW`. -/
def outRleRow (inBE : Bool) (r : Regs) (m : Memory) : List Byte :=
  header r.width.toNat r.height.toNat ++ (List.range r.height.toNat).flatMap fun y => rowStream inBE r m y

/-- R123: `L = 4 + sum over y of (4 * |runs(rowVals(y))| + 2)`; R127: with no column, `L = 4 + 2*H` (log 18). -/
def lenRleRow (inBE : Bool) (r : Regs) (m : Memory) : Nat :=
  if r.width.toNat = 0 then 4 + 2 * r.height.toNat
  else 4 + ((List.range r.height.toNat).map fun y => 4 * (rowTokens inBE r m y).length + 2).sum

/-- R44, R122: the accumulator RLE_ROW leaves: that of its last row, or `init` where it encodes no row (log 13). -/
def accRleRow (inBE : Bool) (r : Regs) (m : Memory) : RleAcc :=
  match checkOperands pixBytes r with
  | some _ => RleAcc.init
  | none => if r.height.toNat = 0 then RleAcc.init else accAfter (rowVals inBE r m (r.height.toNat - 1))

/-- RLE_ROW (R124). -/
def execRleRow (inBE : Bool) (s : State) : Host.Outcome State Fault Refusal :=
  State.runMemory pixBytes (lenRleRow inBE) (outRleRow inBE) keepStride
    { s with acc := accRleRow inBE s.latched s.snap }

end Sys2Proof.Machine
end

