-- ==== Sys2Proof/Machine/Dispatch.lean ====
section
/-! DEFINITION. The meaning of an accepted command: its run and its completion (40_command.md R80, R87). -/

namespace Sys2Proof.Machine

def exec (i : Instr) (s : State) : Host.Outcome State Fault Refusal :=
  match i with
  | .nop => Sys2Proof.Machine.execNop s
  | .pack => Sys2Proof.Machine.execPack s
  | .convert inBE => Sys2Proof.Machine.execConvert inBE s
  | .extract inBE outBE => Sys2Proof.Machine.execExtract inBE outBE s
  | .rleRow inBE => Sys2Proof.Machine.execRleRow inBE s
  | .rleGlobal inBE => Sys2Proof.Machine.execRleGlobal inBE s

end Sys2Proof.Machine
end

