-- ==== Sys2Proof/Machine/Fetch.lean ====
section
/-! DEFINITION. Who moves next: the host or reset, by the oldest event, or the engine (20_memory.md R59,
70_reset_and_hazards.md R164). The engine fetches nothing from memory (10_state.md R21): the command it runs is the word
latched in CMD (R62). -/

namespace Sys2Proof.Machine

/-- What a step does: run a decoded command, or something else whose outcome is known. -/
inductive Turn where
  | run (i : Instr) (s : State)
  | other (o : Host.Outcome State Fault Refusal)

/-- The engine's turn: it runs and completes the accepted command; an idle engine does nothing (R151). -/
def engineTurn (s : State) : Turn :=
  match s.phase with
  | .idle => .other (.next s)
  | .busy =>
    match decode s.cmd with
    | .ok i => .run i s
    | .error _ => .other (completeIllegal s)

/-- R73 `WAIT`: while BUSY = 1 the engine moves and the poll stays; then STATUS is read (log 14). -/
def waitTurn (rest : List Event) (s : State) : Turn :=
  match s.phase with
  | .busy => engineTurn s
  | .idle => .other (hostWaitDone { s with events := rest })

/-- The oldest event decides who moves; with none left it is the engine's turn, so an accepted command completes (R164,
log 2). -/
def nextTurn (s : State) : Turn :=
  match s.events with
  | [] => engineTurn s
  | .engine :: rest => engineTurn { s with events := rest }
  | .wait :: rest => waitTurn rest s
  | .regWrite bits offset data :: rest => .other (hostRegWrite bits offset data { s with events := rest })
  | .regRead bits offset :: rest => .other (hostRegRead bits offset { s with events := rest })
  | .memWrite addr data :: rest => .other (hostMemWrite addr data { s with events := rest })
  | .memRead addr :: rest => .other (hostMemRead addr { s with events := rest })
  | .resetAssert :: rest => .other (.next (State.assertReset { s with events := rest }))
  | .resetRelease :: rest => .other (.next (State.releaseReset { s with events := rest }))
  | .resetSettled :: rest => .other (.next (State.settleReset { s with events := rest }))

/-- The state whose next step runs the command word `w`: the word accepted (R77) and the engine to move next (log 1). -/
def fetchable (s : State) (w : Word) : State :=
  { s.accept w with
    resetLine := .ready
    events := .engine :: s.events }

end Sys2Proof.Machine
end

