-- ==== Sys2Proof/Machine/Step.lean ====
section
/-! DEFINITION. One step of the machine, and how the host places a command word where the next step runs it. -/

namespace Sys2Proof.Machine

/-- One atomic event (20_memory.md R59): an access of the host, a reset event, or the completion of the running
command. -/
def step (s : State) : Host.Outcome State Fault Refusal :=
  match nextTurn s with
  | .run i s' => exec i s'
  | .other o => o

/-- The state in which the engine has accepted the word `w` (30_encoding.md R63, 40_command.md R77) and moves next. -/
def State.withFetchWord (s : State) (nbits w : Nat) : State := fetchable s (BitVec.ofNat 32 (w % 2 ^ nbits))

end Sys2Proof.Machine
end

