-- ==== Sys2Proof/Reader.lean ====
section
/-! DEFINITION. A reader of the run-length streams (44_rle_row.md R126, 45_rle_global.md R135). The engine has no decoder
(00_scope.md R3); statements use this reader to say what a stream means. -/

namespace Sys2Proof.Reader

open Sys2Proof.Machine

/-- R120: each token gives `run` copies of its value. -/
def expand (ts : List Token) : List Half := ts.flatMap fun t => List.replicate t.run t.value

/-- R126: the 16-bit little-endian words of a stream; none if a byte is left over. -/
def halves : List Byte → Option (List Half)
  | [] => some []
  | [_] => none
  | b0 :: b1 :: bs => (halves bs).map (rd16 false b0 b1 :: ·)

/-- R135: tokens to the end of the stream. -/
def readTokens : List Half → Option (List Token)
  | [] => some []
  | [_] => none
  | w :: v :: ws => (readTokens ws).map (⟨w.toNat, v⟩ :: ·)

/-- R126: the tokens of one row, up to its marker, and what follows. A word of 0 is a marker; any other word is a run
length and the next word is its value. -/
def readRow : List Half → Option (List Token × List Half)
  | [] => none
  | [w] => if w = 0 then some ([], []) else none
  | w :: v :: ws =>
    if w = 0 then some ([], v :: ws)
    else (readRow ws).map fun p => (⟨w.toNat, v⟩ :: p.1, p.2)

/-- R126: the tokens of `h` rows, and what follows. -/
def readRows : Nat → List Half → Option (List (List Token) × List Half)
  | 0, ws => some ([], ws)
  | h + 1, ws =>
    match readRow ws with
    | none => none
    | some p => (readRows h p.2).map fun q => (p.1 :: q.1, q.2)

end Sys2Proof.Reader
end

