-- ==== Sys2Proof/Safety.lean ====
section
/-! DEFINITION. What counts as a good state and a safe run, in the terms the statements use. -/

namespace Sys2Proof.Machine

/-- The state invariant: what holds in every state the machine can reach from a good one. -/
structure State.Inv (s : State) : Prop where
  /-- The memory keeps its canonical form (log 3). -/
  mem_wf : s.mem.wf
  /-- So does the snapshot (R54). -/
  snap_wf : s.snap.wf
  /-- R44, R119: a pending run has length 1 .. 65535. -/
  acc_run : 1 ≤ s.acc.pendingRun ∧ s.acc.pendingRun ≤ runMax
  /-- R29, R30: while BUSY = 1, DONE and ERR read 0; R153: a command never runs during reset. -/
  busy_status : s.phase = .busy → s.done = false ∧ s.err = .ok ∧ s.resetLine = .ready
  /-- R90: the operands cannot change while the command runs. -/
  busy_latched : s.phase = .busy → s.latched = s.regs
  /-- R54, R59: within the source window the memory still is what it was at acceptance. -/
  busy_snap : s.phase = .busy → ∀ a, s.latched.srcWindow.contains a = true → s.snap.read a = s.mem.read a
  /-- R152: every register holds its reset value from the assertion of reset until accesses are accepted again. -/
  reset_regs : s.resetLine ≠ .ready →
    s.cmd = 0 ∧ s.phase = .idle ∧ s.done = false ∧ s.err = .ok ∧ s.dropped = false ∧ s.regs = Regs.reset
      ∧ s.dstStride = 0 ∧ s.outLen = 0 ∧ s.packOut = 0
  /-- R29: an idle engine with DONE = 0 has accepted nothing since reset. -/
  fresh : s.phase = .idle → s.done = false →
    s.cmd = 0 ∧ s.err = .ok ∧ s.dropped = false ∧ s.dstStride = 0 ∧ s.outLen = 0 ∧ s.packOut = 0

/-- `t` can be reached from `s` by steps that each answer a next state. -/
inductive Reaches : State → State → Prop where
  | refl (s : State) : Reaches s s
  | step (s t u : State) : Reaches s t → Machine.step t = .next u → Reaches s u

/-- A safe run: from `s` no step ends in a hazard fault, another fault or a refusal (R163). -/
def SafeRun (s : State) : Prop := ∀ t, Reaches s t → ∃ u, Machine.step t = .next u

/-- R79 `Out_op`: the output sequence of a memory command; NOP and PACK have none. -/
def outOf : Instr → Regs → Memory → List Byte
  | .nop, _, _ => []
  | .pack, _, _ => []
  | .convert inBE, r, m => outConvert inBE r m
  | .extract inBE outBE, r, m => outExtract inBE outBE r m
  | .rleRow inBE, r, m => outRleRow inBE r m
  | .rleGlobal inBE, r, m => outRleGlobal inBE r m

/-- RLE_ROW and RLE_GLOBAL, the commands that use the run accumulator (R44). -/
def usesAcc : Instr → Bool
  | .rleRow _ | .rleGlobal _ => true
  | .nop | .pack | .convert _ | .extract _ _ => false

/-- R82: the stride covers a row of `b`-byte pixels. -/
def StrideCovers (b : Nat) (r : Regs) : Prop := r.width.toNat * b ≤ r.srcStride.toNat

/-- R83: the source length covers every row. -/
def LengthCovers (r : Regs) : Prop := r.srcStride.toNat * r.height.toNat ≤ r.srcLen.toNat

/-- R84: both windows end at or below 2^32. -/
def WindowsInRange (r : Regs) : Prop :=
  r.srcBase.toNat + r.srcLen.toNat ≤ 2 ^ 32 ∧ r.dstBase.toNat + r.dstLen.toNat ≤ 2 ^ 32

/-- R51, R85: the windows do not overlap. -/
def WindowsApart (r : Regs) : Prop :=
  ¬(0 < r.srcLen.toNat ∧ 0 < r.dstLen.toNat ∧ r.srcBase.toNat < r.dstBase.toNat + r.dstLen.toNat
    ∧ r.dstBase.toNat < r.srcBase.toNat + r.srcLen.toNat)

/-- R82 to R85: a memory command with `b`-byte input pixels passes every check that reads no memory. -/
def OperandsPass (b : Nat) (r : Regs) : Prop :=
  StrideCovers b r ∧ LengthCovers r ∧ WindowsInRange r ∧ WindowsApart r

end Sys2Proof.Machine
end

