-- ==== Sys2Proof/Certificates/Slice0/Obligations.lean ====
section
/-! DEFINITION. The statements about the model, for the provers. `R<n>` is a numbered rule of spec/; `log <n>` is a row of
the assumption log. -/

open Sys2Proof Sys2Proof.Machine Sys2Proof.Reader

/-! ### Encoding -/

/-- R74: the canonical command words, as the host notation of R73 writes them and as the decoder reads them. -/
def Obligations.CanonicalWordsDecode : Prop :=
  (cmdWord .nop false false = 0x00000000#32 ∧ decode 0x00000000#32 = .ok .nop) ∧
  (cmdWord .pack false false = 0x00000001#32 ∧ decode 0x00000001#32 = .ok .pack) ∧
  (cmdWord .convert false false = 0x00000002#32 ∧ decode 0x00000002#32 = .ok (.convert false)) ∧
  (cmdWord .convert true false = 0x00000012#32 ∧ decode 0x00000012#32 = .ok (.convert true)) ∧
  (cmdWord .extract false false = 0x00000003#32 ∧ decode 0x00000003#32 = .ok (.extract false false)) ∧
  (cmdWord .extract true false = 0x00000013#32 ∧ decode 0x00000013#32 = .ok (.extract true false)) ∧
  (cmdWord .extract false true = 0x00000023#32 ∧ decode 0x00000023#32 = .ok (.extract false true)) ∧
  (cmdWord .extract true true = 0x00000033#32 ∧ decode 0x00000033#32 = .ok (.extract true true)) ∧
  (cmdWord .rleRow false false = 0x00000004#32 ∧ decode 0x00000004#32 = .ok (.rleRow false)) ∧
  (cmdWord .rleRow true false = 0x00000014#32 ∧ decode 0x00000014#32 = .ok (.rleRow true)) ∧
  (cmdWord .rleGlobal false false = 0x00000005#32 ∧ decode 0x00000005#32 = .ok (.rleGlobal false)) ∧
  (cmdWord .rleGlobal true false = 0x00000015#32 ∧ decode 0x00000015#32 = .ok (.rleGlobal true))

/-- R63, R64, R71: the decoder reads back every command that the encoder writes. -/
def Obligations.DecodeOfEncode : Prop := ∀ i : Instr, decode (encode i) = .ok i

/-- R64, R65, R67, R71: a word decodes to `i` exactly when it agrees with the word of `i` in every bit that `i` does not
ignore. -/
def Obligations.DecodeByUsedBits : Prop :=
  ∀ (w : Word) (i : Instr), decode w = .ok i ↔ w &&& i.usedBits = encode i

/-- R64, R66 and the opcode table: a word is of the row `m` exactly when its bits under the table's mask 0xFFFFFFCF are
the row's number; the words of no row are the illegal ones, by the name of what is wrong. -/
def Obligations.DecodeMatchesOpcodeTable : Prop :=
  (∀ (w : Word) (m : Mnemonic),
    (∃ i, decode w = .ok i ∧ i.mnemonic = m) ↔ w &&& 0xFFFFFFCF#32 = BitVec.ofNat 32 m.opcode) ∧
  (∀ w : Word, decode w = .error .reservedBits ↔ w.extractLsb' 6 26 ≠ 0#26) ∧
  (∀ w : Word, decode w = .error .reservedOpcode ↔
    w.extractLsb' 6 26 = 0#26 ∧ 6 ≤ (w.extractLsb' 0 4).toNat)

/-! ### The step -/

/-- R62, R77, R80, R164 (log 1, log 2): the engine runs the command whose word it accepted: when its turn comes, when
nothing else is to come, and while the host waits; the host's way to place a word runs it in the very next step. -/
def Obligations.StepRunsAcceptedCommand : Prop :=
  (∀ (s : State) (i : Instr) (rest : List Event), s.phase = .busy → decode s.cmd = .ok i →
    (s.events = [] → step s = exec i s) ∧
    (s.events = .engine :: rest → step s = exec i { s with events := rest }) ∧
    (s.events = .wait :: rest → step s = exec i s)) ∧
  (∀ (s : State) (nbits w : Nat) (i : Instr), decode (BitVec.ofNat 32 (w % 2 ^ nbits)) = .ok i →
    step (s.withFetchWord nbits w) =
      exec i { s.accept (BitVec.ofNat 32 (w % 2 ^ nbits)) with resetLine := .ready })

/-- R66, R81: an illegal word is accepted like any other and completes as ILLEGAL; nothing but STATUS and CMD changes
(and the hidden latches of R77; the hazard mark is log 8). -/
def Obligations.IllegalWordCompletes : Prop :=
  ∀ (s : State) (w : Word) (rest : List Event),
    6 ≤ (w.extractLsb' 0 4).toNat ∨ w.extractLsb' 6 26 ≠ 0#26 →
    s.resetLine = .ready → s.phase = .idle → s.events = .regWrite 32 0x00 w :: .engine :: rest →
    ∃ t, step s = .next t ∧ step t = .next
      { s with
        cmd := w
        phase := .idle
        done := true
        err := .illegal
        dropped := false
        latched := s.regs
        snap := s.mem
        unacked := s.regs.dstWindow :: s.unacked
        events := rest }

/-- R77: a write of any word to CMD while BUSY = 0 is accepted in one event. -/
def Obligations.CmdWriteIsAccepted : Prop :=
  ∀ (s : State) (w : Word) (rest : List Event),
    s.resetLine = .ready → s.phase = .idle → s.events = .regWrite 32 0x00 w :: rest →
    step s = .next
      { s with
        cmd := w
        phase := .busy
        done := false
        err := .ok
        dropped := false
        snap := s.mem
        latched := s.regs
        events := rest }

/-- R78, R24, R27: a write to CMD or an RW register while BUSY = 1 changes DROPPED only; a write to an RO register or a
reserved offset changes nothing at any time. -/
def Obligations.IgnoredWrites : Prop :=
  (∀ (s : State) (offset : Nat) (v : Word) (rest : List Event),
    s.resetLine = .ready → s.phase = .busy → s.events = .regWrite 32 offset v :: rest →
    offset ∈ [0x00, 0x08, 0x0C, 0x10, 0x14, 0x18, 0x1C, 0x20, 0x2C] →
    step s = .next { s with dropped := true, events := rest }) ∧
  (∀ (s : State) (offset : Nat) (v : Word) (rest : List Event),
    s.resetLine = .ready → s.events = .regWrite 32 offset v :: rest →
    (offset ∈ [0x04, 0x24, 0x28, 0x30] ∨ (offset % 4 = 0 ∧ 0x34 ≤ offset ∧ offset < 0x100)) →
    step s = .next { s with events := rest })

/-- R23, R32 to R38, R41: a write to an operand register while BUSY = 0 gives that register the value and changes
nothing else. -/
def Obligations.OperandWriteWhileIdle : Prop :=
  ∀ (s : State) (v : Word) (rest : List Event), s.resetLine = .ready → s.phase = .idle →
    (s.events = .regWrite 32 0x08 v :: rest →
      step s = .next { s with regs := { s.regs with width := v }, events := rest }) ∧
    (s.events = .regWrite 32 0x0C v :: rest →
      step s = .next { s with regs := { s.regs with height := v }, events := rest }) ∧
    (s.events = .regWrite 32 0x10 v :: rest →
      step s = .next { s with regs := { s.regs with srcBase := v }, events := rest }) ∧
    (s.events = .regWrite 32 0x14 v :: rest →
      step s = .next { s with regs := { s.regs with srcStride := v }, events := rest }) ∧
    (s.events = .regWrite 32 0x18 v :: rest →
      step s = .next { s with regs := { s.regs with srcLen := v }, events := rest }) ∧
    (s.events = .regWrite 32 0x1C v :: rest →
      step s = .next { s with regs := { s.regs with dstBase := v }, events := rest }) ∧
    (s.events = .regWrite 32 0x20 v :: rest →
      step s = .next { s with regs := { s.regs with dstLen := v }, events := rest }) ∧
    (s.events = .regWrite 32 0x2C v :: rest →
      step s = .next { s with regs := { s.regs with packIn := v }, events := rest })

/-- R23, R24, R26, R42, R78: at any time a read returns the register at the offset, a reserved offset reads 0, and the
engine does not change; a STATUS read that shows BUSY = 0 ends the hazards (R158, log 9). -/
def Obligations.RegisterReads : Prop :=
  ∀ (s : State) (offset : Nat) (rest : List Event),
    s.resetLine = .ready → offset % 4 = 0 → offset < 0x100 → s.events = .regRead 32 offset :: rest →
    step s = .next
      { s with
        unacked := if offset = 0x04 ∧ s.phase = .idle then [] else s.unacked
        events := rest
        replies := .reg (match offset with
          | 0x00 => s.cmd
          | 0x04 => s.status
          | 0x08 => s.regs.width
          | 0x0C => s.regs.height
          | 0x10 => s.regs.srcBase
          | 0x14 => s.regs.srcStride
          | 0x18 => s.regs.srcLen
          | 0x1C => s.regs.dstBase
          | 0x20 => s.regs.dstLen
          | 0x24 => s.dstStride
          | 0x28 => s.outLen
          | 0x2C => s.regs.packIn
          | 0x30 => 0#16 ++ s.packOut
          | _ => 0#32) :: s.replies }

/-- R27, R28, R30, R137: the fields of STATUS; the reserved bits read 0 and ERR is one of 0 .. 5. -/
def Obligations.StatusFields : Prop :=
  ∀ s : State,
    s.status.getLsbD 0 = decide (s.phase = .busy) ∧
    s.status.getLsbD 1 = s.done ∧
    s.status.extractLsb' 2 2 = 0#2 ∧
    s.status.extractLsb' 4 4 = (match s.err with
      | .ok => 0#4
      | .illegal => 1#4
      | .malformed => 2#4
      | .range => 3#4
      | .overlap => 4#4
      | .overflow => 5#4) ∧
    s.status.getLsbD 8 = s.dropped ∧
    s.status.extractLsb' 9 23 = 0#23

/-- R25, R166, R4 (log 11, log 16): register accesses outside the interface are refused by name. -/
def Obligations.RefusedRegisterAccesses : Prop :=
  ∀ (s : State) (bits offset : Nat) (v : Word) (rest : List Event),
    (s.events = .regWrite bits offset v :: rest ∨ s.events = .regRead bits offset :: rest) →
    (s.resetLine ≠ .ready → step s = .refused .accessDuringReset) ∧
    (s.resetLine = .ready → bits ≠ 32 → step s = .refused .registerWidth) ∧
    (s.resetLine = .ready → bits = 32 → offset % 4 ≠ 0 → step s = .refused .registerAlignment) ∧
    (s.resetLine = .ready → bits = 32 → offset % 4 = 0 → 0x100 ≤ offset → step s = .refused .registerOffset)

/-! ### NOP and PACK -/

/-- R89, R80: NOP completes OK and changes nothing but STATUS (the hazard mark is log 8). -/
def Obligations.NopCompletes : Prop :=
  ∀ s : State, exec .nop s = .next
    { s with
      phase := .idle
      done := true
      err := .ok
      unacked := s.latched.dstWindow :: s.unacked }

/-- R94: the field law of the Color Packer. -/
def Obligations.PackFieldLaw : Prop :=
  ∀ r g b : Byte,
    ((pack565 r g b).extractLsb' 11 5).setWidth 8 = r >>> 3 ∧
    ((pack565 r g b).extractLsb' 5 6).setWidth 8 = g >>> 2 ∧
    ((pack565 r g b).extractLsb' 0 5).setWidth 8 = b >>> 3

/-- R97: the preimages of a value: R, G and B are free in their low 3, 2 and 3 bits and fixed above; so every value is
reached. -/
def Obligations.PackPreimages : Prop :=
  (∀ (r g b : Byte) (v : Half), pack565 r g b = v ↔
    (r.extractLsb' 3 5 = v.extractLsb' 11 5 ∧ g.extractLsb' 2 6 = v.extractLsb' 5 6
      ∧ b.extractLsb' 3 5 = v.extractLsb' 0 5)) ∧
  (∀ v : Half, pack565 (v.extractLsb' 11 5 ++ 0#3) (v.extractLsb' 5 6 ++ 0#2) (v.extractLsb' 0 5 ++ 0#3) = v)

/-- R96, R80: PACK completes OK, gives PACK_OUT the packed value of the latched PACK_IN, and changes nothing else but
STATUS. -/
def Obligations.PackCompletes : Prop :=
  ∀ s : State, exec .pack s = .next
    { s with
      packOut := pack565 (s.latched.packIn.extractLsb' 16 8) (s.latched.packIn.extractLsb' 8 8)
        (s.latched.packIn.extractLsb' 0 8)
      phase := .idle
      done := true
      err := .ok
      unacked := s.latched.dstWindow :: s.unacked }

/-- R98: CONVERT computes of a pixel's four bytes what PACK computes of PACK_IN = A<<24 | R<<16 | G<<8 | B. -/
def Obligations.PackAgreesWithConvert : Prop :=
  ∀ (m : Memory) (o : Nat),
    sourcePixel m o = packWord (m.read (o + 3) ++ m.read (o + 2) ++ m.read (o + 1) ++ m.read o)

/-! ### The checks of a memory command -/

/-- R82, R83, R80, R141: a memory command with a stride or a length too small completes as MALFORMED, whatever else is
wrong: OUT_LEN is 0 and nothing else but STATUS changes (of the accumulator of an RLE command, nothing is said). That it
does so too when a window is no ordinary memory is the model's choice (DESIGN CHOICE, log 5; R56 and U15 let a model
refuse such a command). -/
def Obligations.MalformedCompletes : Prop :=
  ∀ (i : Instr) (b : Nat) (s : State), bpp i = some b →
    (s.latched.srcStride.toNat < s.latched.width.toNat * b ∨
      s.latched.srcLen.toNat < s.latched.srcStride.toNat * s.latched.height.toNat) →
    ∃ a : RleAcc, (usesAcc i = false → a = s.acc) ∧ exec i s = .next
      { s with
        acc := a
        outLen := 0
        phase := .idle
        done := true
        err := .malformed
        unacked := s.latched.dstWindow :: s.unacked }

/-- R84, R80, R141: a memory command that is not malformed and whose window runs past 2^32 completes as RANGE.
That it does so too when a window is no ordinary memory is the model's choice (DESIGN CHOICE, log 5; R56 and U15 let a
model refuse such a command). -/
def Obligations.RangeCompletes : Prop :=
  ∀ (i : Instr) (b : Nat) (s : State), bpp i = some b → StrideCovers b s.latched → LengthCovers s.latched →
    (2 ^ 32 < s.latched.srcBase.toNat + s.latched.srcLen.toNat ∨
      2 ^ 32 < s.latched.dstBase.toNat + s.latched.dstLen.toNat) →
    ∃ a : RleAcc, (usesAcc i = false → a = s.acc) ∧ exec i s = .next
      { s with
        acc := a
        outLen := 0
        phase := .idle
        done := true
        err := .range
        unacked := s.latched.dstWindow :: s.unacked }

/-- R85, R51, R80, R141: a memory command that passes those checks and whose windows overlap completes as OVERLAP.
That it does so too when a window is no ordinary memory is the model's choice (DESIGN CHOICE, log 5; R56 and U15 let a
model refuse such a command). -/
def Obligations.OverlapCompletes : Prop :=
  ∀ (i : Instr) (b : Nat) (s : State), bpp i = some b → StrideCovers b s.latched → LengthCovers s.latched →
    WindowsInRange s.latched →
    0 < s.latched.srcLen.toNat → 0 < s.latched.dstLen.toNat →
    s.latched.srcBase.toNat < s.latched.dstBase.toNat + s.latched.dstLen.toNat →
    s.latched.dstBase.toNat < s.latched.srcBase.toNat + s.latched.srcLen.toNat →
    ∃ a : RleAcc, (usesAcc i = false → a = s.acc) ∧ exec i s = .next
      { s with
        acc := a
        outLen := 0
        phase := .idle
        done := true
        err := .overlap
        unacked := s.latched.dstWindow :: s.unacked }

/-- R86, R88, R80: a memory command whose output is longer than DST_LEN completes as OVERFLOW: OUT_LEN is the length
saturated at 2^32 - 1, CONVERT also gives DST_STRIDE its stride, and no byte is written. -/
def Obligations.OverflowCompletes : Prop :=
  ∀ (i : Instr) (b : Nat) (s : State), bpp i = some b → OperandsPass b s.latched → s.windowsOrdinary = true →
    s.latched.dstLen.toNat < (outOf i s.latched s.snap).length →
    ∃ a : RleAcc, (usesAcc i = false → a = s.acc) ∧ exec i s = .next
      { s with
        acc := a
        outLen := BitVec.ofNat 32 (min (outOf i s.latched s.snap).length (2 ^ 32 - 1))
        dstStride := (match i with
          | .convert _ => BitVec.ofNat 32 ((s.latched.width.toNat * 16 + 31) / 32 * 4)
          | _ => s.dstStride)
        phase := .idle
        done := true
        err := .overflow
        unacked := s.latched.dstWindow :: s.unacked }

/-- R56, R57, U15 (log 5, the model's choice of when; log 6, when the register window counts): a memory command that
passes the register checks and has a window that is not ordinary memory, or that touches the register window where the
engine sees it through the bus, is refused by name. -/
def Obligations.NotMemoryWindowRefused : Prop :=
  ∀ (i : Instr) (b : Nat) (s : State), bpp i = some b → OperandsPass b s.latched →
    ((∃ w ∈ s.platform.notMemory,
        w.overlaps s.latched.srcWindow = true ∨ w.overlaps s.latched.dstWindow = true) ∨
      (s.platform.engineSeesRegs = true ∧
        (s.platform.regWindow.overlaps s.latched.srcWindow = true ∨
          s.platform.regWindow.overlaps s.latched.dstWindow = true))) →
    exec i s = .refused .windowNotMemory

/-! ### The memory commands complete -/

/-- R103, R80: CONVERT of a well-formed request that fits completes OK: it writes its output sequence at DST_BASE, gives
OUT_LEN `destStride(W) * H` and DST_STRIDE `destStride(W)`, and changes nothing else but STATUS. -/
def Obligations.ConvertCompletes : Prop :=
  ∀ (inBE : Bool) (s : State), OperandsPass 4 s.latched → s.windowsOrdinary = true →
    destStride s.latched.width.toNat * s.latched.height.toNat ≤ s.latched.dstLen.toNat →
    exec (.convert inBE) s = .next
      { s with
        mem := s.mem.writeBytes s.latched.dstBase.toNat (outConvert inBE s.latched s.snap)
        outLen := BitVec.ofNat 32 (destStride s.latched.width.toNat * s.latched.height.toNat)
        dstStride := BitVec.ofNat 32 (destStride s.latched.width.toNat)
        phase := .idle
        done := true
        err := .ok
        unacked := s.latched.dstWindow :: s.unacked }

/-- R111, R80: EXTRACT of a well-formed request that fits completes OK: it writes its output sequence at DST_BASE, gives
OUT_LEN `2*W*H`, and changes nothing else but STATUS. -/
def Obligations.ExtractCompletes : Prop :=
  ∀ (inBE outBE : Bool) (s : State), OperandsPass 2 s.latched → s.windowsOrdinary = true →
    2 * s.latched.width.toNat * s.latched.height.toNat ≤ s.latched.dstLen.toNat →
    exec (.extract inBE outBE) s = .next
      { s with
        mem := s.mem.writeBytes s.latched.dstBase.toNat (outExtract inBE outBE s.latched s.snap)
        outLen := BitVec.ofNat 32 (2 * s.latched.width.toNat * s.latched.height.toNat)
        phase := .idle
        done := true
        err := .ok
        unacked := s.latched.dstWindow :: s.unacked }

/-- R124, R80: RLE_ROW of a well-formed request that fits completes OK: it writes its stream at DST_BASE, gives OUT_LEN
its length, and changes nothing else but STATUS and the accumulator. -/
def Obligations.RleRowCompletes : Prop :=
  ∀ (inBE : Bool) (s : State), OperandsPass 2 s.latched → s.windowsOrdinary = true →
    (outRleRow inBE s.latched s.snap).length ≤ s.latched.dstLen.toNat →
    ∃ a : RleAcc, exec (.rleRow inBE) s = .next
      { s with
        acc := a
        mem := s.mem.writeBytes s.latched.dstBase.toNat (outRleRow inBE s.latched s.snap)
        outLen := BitVec.ofNat 32 (outRleRow inBE s.latched s.snap).length
        phase := .idle
        done := true
        err := .ok
        unacked := s.latched.dstWindow :: s.unacked }

/-- R132, R80: RLE_GLOBAL of a well-formed request that fits completes OK: it writes its stream at DST_BASE, gives
OUT_LEN its length, and changes nothing else but STATUS and the accumulator. -/
def Obligations.RleGlobalCompletes : Prop :=
  ∀ (inBE : Bool) (s : State), OperandsPass 2 s.latched → s.windowsOrdinary = true →
    (outRleGlobal inBE s.latched s.snap).length ≤ s.latched.dstLen.toNat →
    ∃ a : RleAcc, exec (.rleGlobal inBE) s = .next
      { s with
        acc := a
        mem := s.mem.writeBytes s.latched.dstBase.toNat (outRleGlobal inBE s.latched s.snap)
        outLen := BitVec.ofNat 32 (outRleGlobal inBE s.latched s.snap).length
        phase := .idle
        done := true
        err := .ok
        unacked := s.latched.dstWindow :: s.unacked }

/-! ### What a command changes, and what it depends on -/

/-- R53: a memory command that completes OK writes exactly the bytes of its output sequence at DST_BASE, and no other
byte; a command that completes with an error, an illegal word included, writes no byte; NOP and PACK write no memory. -/
def Obligations.OkWritesExactlyOutput : Prop :=
  ∀ (i : Instr) (s t : State), s.mem.wf → exec i s = .next t →
    (t.err ≠ .ok → t.mem = s.mem) ∧
    (bpp i = none → t.mem = s.mem) ∧
    (bpp i ≠ none → t.err = .ok →
      (outOf i s.latched s.snap).length ≤ s.latched.dstLen.toNat ∧
      (∀ (k : Nat) (h : k < (outOf i s.latched s.snap).length),
        t.mem.read (s.latched.dstBase.toNat + k) = (outOf i s.latched s.snap)[k]) ∧
      (∀ a : Nat, a < s.latched.dstBase.toNat ∨
          s.latched.dstBase.toNat + (outOf i s.latched s.snap).length ≤ a →
        t.mem.read a = s.mem.read a)) ∧
    (∀ u, completeIllegal s = .next u → u.mem = s.mem)

/-- R23, R39, R40, R42, R44, R68, R80: what a command's run leaves unchanged: every operand register, CMD, DROPPED and
the latches always; DST_STRIDE but for CONVERT with OK or OVERFLOW; OUT_LEN for NOP and PACK; PACK_OUT but for PACK; the
accumulator but for the RLE commands; memory for NOP and PACK. -/
def Obligations.EngineFrame : Prop :=
  ∀ (i : Instr) (s t : State), exec i s = .next t →
    (t.regs = s.regs ∧ t.cmd = s.cmd ∧ t.dropped = s.dropped ∧ t.latched = s.latched ∧ t.snap = s.snap
      ∧ t.resetLine = s.resetLine ∧ t.platform = s.platform ∧ t.draws = s.draws ∧ t.events = s.events
      ∧ t.replies = s.replies) ∧
    (t.phase = .idle ∧ t.done = true ∧ t.err ≠ .illegal) ∧
    (bpp i = none → t.err = .ok ∧ t.outLen = s.outLen ∧ t.dstStride = s.dstStride ∧ t.mem = s.mem) ∧
    ((∀ inBE, i ≠ .convert inBE) → t.dstStride = s.dstStride) ∧
    (t.err ≠ .ok → t.err ≠ .overflow → t.dstStride = s.dstStride) ∧
    (i ≠ .pack → t.packOut = s.packOut) ∧
    (usesAcc i = false → t.acc = s.acc)

/-- R79, R92: for a given command, latched operands and snapshot (on one platform) the outcome, the result registers and
the bytes written are one fixed value, whatever the rest of the state holds. -/
def Obligations.ResultDependsOnLatchedAndSnap : Prop :=
  ∀ (i : Instr) (s₁ s₂ t₁ : State),
    s₁.latched = s₂.latched → s₁.snap = s₂.snap → s₁.platform = s₂.platform → exec i s₁ = .next t₁ →
    ∃ t₂, exec i s₂ = .next t₂ ∧ t₂.err = t₁.err ∧
      (bpp i ≠ none → t₂.outLen = t₁.outLen) ∧
      (i = .pack → t₂.packOut = t₁.packOut) ∧
      ((∃ inBE, i = .convert inBE) → t₁.err = .ok ∨ t₁.err = .overflow → t₂.dstStride = t₁.dstStride) ∧
      (s₁.mem.wf → s₂.mem.wf → bpp i ≠ none → t₁.err = .ok →
        ∀ k < (outOf i s₁.latched s₁.snap).length,
          t₂.mem.read (s₁.latched.dstBase.toNat + k) = t₁.mem.read (s₁.latched.dstBase.toNat + k))

/-- R52, R46, R95: a memory command's whole effect depends on the snapshot only through the bytes of its pixels: B, G and
R of a source pixel, both bytes of an RGB565 pixel; alpha, padding and every byte outside are never read. -/
def Obligations.ReadsOnlyPixelBytes : Prop :=
  ∀ (i : Instr) (b : Nat) (s : State) (m : Memory), bpp i = some b →
    (∀ x y j : Nat, x < s.latched.width.toNat → y < s.latched.height.toNat → j < (if b = 4 then 3 else 2) →
      m.read (s.latched.srcBase.toNat + y * s.latched.srcStride.toNat + x * b + j) =
        s.snap.read (s.latched.srcBase.toNat + y * s.latched.srcStride.toNat + x * b + j)) →
    (∀ t, exec i s = .next t → exec i { s with snap := m } = .next { t with snap := m }) ∧
    (∀ r, exec i s = .refused r → exec i { s with snap := m } = .refused r)

/-- R52: when the MALFORMED checks pass, every byte of every pixel lies in the source window. -/
def Obligations.PixelBytesInSourceWindow : Prop :=
  ∀ (b x y j : Nat) (r : Regs), StrideCovers b r → LengthCovers r →
    x < r.width.toNat → y < r.height.toNat → j < b →
    r.srcWindow.contains (r.srcBase.toNat + y * r.srcStride.toNat + x * b + j) = true

/-! ### The output sequences -/

/-- R79, R103, R104, R111, R114, R123, R127, R131, R134 (log 18): the length each command checks against DST_LEN and
reports is the length of its output sequence. -/
def Obligations.OutputLengths : Prop :=
  ∀ (inBE outBE : Bool) (r : Regs) (m : Memory),
    (outConvert inBE r m).length = destStride r.width.toNat * r.height.toNat ∧
    (outExtract inBE outBE r m).length = 2 * r.width.toNat * r.height.toNat ∧
    (outRleRow inBE r m).length =
      4 + ((List.range r.height.toNat).map fun y => 4 * (runs (rowVals inBE r m y)).length + 2).sum ∧
    (outRleGlobal inBE r m).length = 4 * (runs (flat inBE r m)).length ∧
    lenConvert r m = (outConvert inBE r m).length ∧
    lenExtract r m = (outExtract inBE outBE r m).length ∧
    lenRleRow inBE r m = (outRleRow inBE r m).length ∧
    lenRleGlobal inBE r m = (outRleGlobal inBE r m).length

/-- R100, R101: the destination stride is `((w*16 + 31) div 32) * 4` and equals `4 * ceil(w / 2)`: a multiple of 4, at
least 2w, with 0 or 2 bytes of padding as w is even or odd; when the stride check passes it fits DST_STRIDE. -/
def Obligations.DestStrideProperties : Prop :=
  (∀ w : Nat, destStride w = (w * 16 + 31) / 32 * 4 ∧ destStride w = 4 * ((w + 1) / 2) ∧ destStride w % 4 = 0
    ∧ destStride w = 2 * w + (if w % 2 = 0 then 0 else 2)) ∧
  (∀ r : Regs, StrideCovers 4 r → r.width.toNat < 2 ^ 30 ∧ destStride r.width.toNat ≤ 2 ^ 31) ∧
  [0, 1, 2, 3, 4, 5, 640, 70000].map destStride = [0, 4, 4, 8, 8, 12, 1280, 140000]

/-- R102: pixel (x, y) lands at output offset `y*D + x*2`, high byte first if IN_BE, and the padding of each row is
0x00. -/
def Obligations.ConvertOutputPixels : Prop :=
  ∀ (inBE : Bool) (r : Regs) (m : Memory) (y : Nat), y < r.height.toNat →
    (∀ x < r.width.toNat,
      let o := r.srcBase.toNat + y * r.srcStride.toNat + x * 4
      let v := pack565 (m.read (o + 2)) (m.read (o + 1)) (m.read o)
      let k := y * destStride r.width.toNat + x * 2
      (outConvert inBE r m)[k]? = some (if inBE then v.extractLsb' 8 8 else v.extractLsb' 0 8) ∧
      (outConvert inBE r m)[k + 1]? = some (if inBE then v.extractLsb' 0 8 else v.extractLsb' 8 8)) ∧
    (∀ p, 2 * r.width.toNat ≤ p → p < destStride r.width.toNat →
      (outConvert inBE r m)[y * destStride r.width.toNat + p]? = some 0#8)

/-- R112, R114: the output of EXTRACT has `2*W*H` bytes whatever the stride; output pixel `k = y*W + x` is at output
offset `2k` and holds the two bytes of input pixel (x, y), in their order when IN_BE = OUT_BE and exchanged when not. -/
def Obligations.ExtractKeepsOrSwapsBytes : Prop :=
  ∀ (inBE outBE : Bool) (r : Regs) (m : Memory),
    (outExtract inBE outBE r m).length = 2 * r.width.toNat * r.height.toNat ∧
    ∀ x y : Nat, x < r.width.toNat → y < r.height.toNat →
    let o := r.srcBase.toNat + y * r.srcStride.toNat + x * 2
    let k := y * r.width.toNat + x
    (outExtract inBE outBE r m)[2 * k]? = some (if inBE = outBE then m.read o else m.read (o + 1)) ∧
    (outExtract inBE outBE r m)[2 * k + 1]? = some (if inBE = outBE then m.read (o + 1) else m.read o)

/-- R113: reading with the other byte order gives every value with its two bytes exchanged. -/
def Obligations.WrongByteOrderSwaps : Prop :=
  ∀ (inBE : Bool) (r : Regs) (m : Memory),
    (∀ y, rowVals (!inBE) r m y = (rowVals inBE r m y).map fun v => ((v &&& 0x00FF#16) <<< 8) ||| (v >>> 8)) ∧
    flat (!inBE) r m = (flat inBE r m).map fun v => ((v &&& 0x00FF#16) <<< 8) ||| (v >>> 8)

/-- R120: the tokens expand to the sequence, and every run length is 1 .. 65535. -/
def Obligations.RunsExpandToInput : Prop :=
  ∀ seq : List Half,
    expand (runs seq) = seq ∧ (∀ t ∈ runs seq, 1 ≤ t.run ∧ t.run ≤ 65535) ∧ runs [] = []

/-- R121: n equal values give `n div 65535` tokens of run 65535 and one of the rest, if any; two adjacent tokens have
equal values only if the first has run 65535. -/
def Obligations.RunCapSplits : Prop :=
  (∀ (n : Nat) (v : Half),
    runs (List.replicate n v) =
      List.replicate (n / 65535) ⟨65535, v⟩ ++ (if n % 65535 = 0 then [] else [⟨n % 65535, v⟩])) ∧
  (∀ (seq : List Half) (before after : List Token) (t u : Token),
    runs seq = before ++ t :: u :: after → t.value = u.value → t.run = 65535)

/-- R118, R123, R125, R126, R127: the RLE_ROW stream, read as R126 reads it, is the header (low 16 bits of W and H) and
then exactly H rows with nothing left over; the tokens of row y expand to the pixels of row y, so their run lengths sum
to W. -/
def Obligations.RleRowStreamParses : Prop :=
  ∀ (inBE : Bool) (r : Regs) (m : Memory),
    ∃ (ws : List Half) (rows : List (List Token)),
      halves (outRleRow inBE r m) =
        some (BitVec.ofNat 16 r.width.toNat :: BitVec.ofNat 16 r.height.toNat :: ws) ∧
      readRows r.height.toNat ws = some (rows, []) ∧
      rows.map expand = (List.range r.height.toNat).map (fun y => rowVals inBE r m y) ∧
      (∀ row ∈ rows, (row.map Token.run).sum = r.width.toNat)

/-- R135: expanding the tokens of the RLE_GLOBAL stream gives the pixels in row-major order, and the run lengths sum to
`W*H`. -/
def Obligations.RleGlobalRoundTrip : Prop :=
  ∀ (inBE : Bool) (r : Regs) (m : Memory),
    ∃ (ws : List Half) (ts : List Token),
      halves (outRleGlobal inBE r m) = some ws ∧ readTokens ws = some ts ∧ expand ts = flat inBE r m ∧
      (ts.map Token.run).sum = r.width.toNat * r.height.toNat

/-- R136: the whole image has no more tokens than its rows together, so the global stream is never longer than the
row-scoped one less its header and markers, and is strictly shorter than it. -/
def Obligations.GlobalStreamIsCompact : Prop :=
  ∀ (inBE : Bool) (r : Regs) (m : Memory),
    (runs (flat inBE r m)).length ≤
      ((List.range r.height.toNat).map fun y => (runs (rowVals inBE r m y)).length).sum ∧
    (outRleGlobal inBE r m).length < (outRleRow inBE r m).length ∧
    (outRleGlobal inBE r m).length + 4 + 2 * r.height.toNat ≤ (outRleRow inBE r m).length

/-- R127: RLE_ROW with no column, no row, or one column. -/
def Obligations.RleRowEdgeCases : Prop :=
  ∀ (inBE : Bool) (r : Regs) (m : Memory),
    (r.width.toNat = 0 →
      outRleRow inBE r m = [0, 0] ++ le16 (BitVec.ofNat 16 r.height.toNat) ++ List.replicate (2 * r.height.toNat) 0) ∧
    (r.height.toNat = 0 → outRleRow inBE r m = le16 (BitVec.ofNat 16 r.width.toNat) ++ [0, 0]) ∧
    (r.width.toNat = 1 →
      outRleRow inBE r m = [1, 0] ++ le16 (BitVec.ofNat 16 r.height.toNat) ++
        (List.range r.height.toNat).flatMap fun y => [1, 0] ++ le16 (pix inBE r m 0 y) ++ [0, 0])

/-- R128: the number of tokens of a row and the size of the RLE_ROW stream; a row of identical pixels with 1 ≤ W ≤ 65535 costs 6 bytes. -/
def Obligations.RleRowSizeBounds : Prop :=
  ∀ (inBE : Bool) (r : Regs) (m : Memory), 1 ≤ r.width.toNat →
    (∀ y, (r.width.toNat + 65534) / 65535 ≤ (rowTokens inBE r m y).length ∧
      (rowTokens inBE r m y).length ≤ r.width.toNat) ∧
    4 + r.height.toNat * (4 * ((r.width.toNat + 65534) / 65535) + 2) ≤ (outRleRow inBE r m).length ∧
    (outRleRow inBE r m).length ≤ 4 + r.height.toNat * (4 * r.width.toNat + 2) ∧
    (∀ (y : Nat) (v : Half), r.width.toNat ≤ 65535 → (∀ x < r.width.toNat, pix inBE r m x y = v) →
      (rowStream inBE r m y).length = 6)

/-- R134, R131: with no pixel RLE_GLOBAL completes OK, writes nothing and gives OUT_LEN 0, even for DST_LEN = 0. -/
def Obligations.ZeroPixelsGiveNoTokens : Prop :=
  ∀ (inBE : Bool) (s : State), s.latched.width.toNat = 0 ∨ s.latched.height.toNat = 0 →
    OperandsPass 2 s.latched → s.windowsOrdinary = true →
    runs [] = [] ∧ outRleGlobal inBE s.latched s.snap = [] ∧
    ∃ t, exec (.rleGlobal inBE) s = .next t ∧ t.err = .ok ∧ t.outLen = 0 ∧ t.mem = s.mem

/-- R105: after an OK CONVERT, a reader of its output with the same byte order and sizes, the stride of DST_STRIDE and
the length of OUT_LEN passes the MALFORMED checks and reads `pack565` of each source pixel in row-major order. -/
def Obligations.ConvertThenReadGivesPixels : Prop :=
  ∀ (inBE : Bool) (s t : State) (r : Regs), s.mem.wf → exec (.convert inBE) s = .next t → t.err = .ok →
    r.width = s.latched.width → r.height = s.latched.height → r.srcBase = s.latched.dstBase →
    r.srcStride = t.dstStride → r.srcLen = t.outLen →
    StrideCovers 2 r ∧ LengthCovers r ∧
    flat inBE r t.mem = (List.range s.latched.height.toNat).flatMap fun y =>
      (List.range s.latched.width.toNat).map fun x =>
        let o := s.latched.srcBase.toNat + y * s.latched.srcStride.toNat + x * 4
        pack565 (s.snap.read (o + 2)) (s.snap.read (o + 1)) (s.snap.read o)

/-! ### Invariants and whole-machine rules -/

/-- The state after reset meets the invariant. -/
def Obligations.ResetMeetsInvariant : Prop := State.reset.Inv

/-- Every step from a good state leads to a good state: memory keeps its canonical form, the snapshot agrees with memory
in the source window while a command runs (R54, R59), the operands of a running command cannot change (R90), STATUS is
consistent (R29, R30), and registers hold their reset values until accesses are accepted after reset (R152). -/
def Obligations.StepKeepsInvariant : Prop := ∀ s t : State, s.Inv → step s = .next t → t.Inv

/-- R28, R77, R80, R153: only an accepted CMD write starts a command, and it latches memory and operands; only completion
or reset ends one. -/
def Obligations.PhaseChanges : Prop :=
  ∀ s t : State, step s = .next t →
    (s.phase = .idle → t.phase = .busy → ∃ (w : Word) (rest : List Event),
      s.events = .regWrite 32 0x00 w :: rest ∧ t.cmd = w ∧ t.snap = s.mem ∧ t.latched = s.regs) ∧
    (s.phase = .busy → t.phase = .idle → t.done = true ∨ t.resetLine = .asserted)

/-- R23, R31, R57, R78: a step changes an operand register only by a host write while BUSY = 0 or by reset; it sets
DROPPED only by a write while BUSY = 1 and clears it only by an acceptance or by reset; it never changes the
platform. -/
def Obligations.RegisterChangeRules : Prop :=
  ∀ s t : State, step s = .next t →
    (t.regs ≠ s.regs → (s.phase = .idle ∧ ∃ offset v rest, s.events = .regWrite 32 offset v :: rest) ∨
      ∃ rest, s.events = .resetAssert :: rest) ∧
    (s.dropped = false → t.dropped = true →
      s.phase = .busy ∧ ∃ offset v rest, s.events = .regWrite 32 offset v :: rest) ∧
    (s.dropped = true → t.dropped = false →
      (s.phase = .idle ∧ t.phase = .busy) ∨ ∃ rest, s.events = .resetAssert :: rest) ∧
    t.platform = s.platform

/-! ### Reset -/

/-- R152, R155: after reset every register reads 0x00000000 and the engine is idle (that accesses are accepted is
log 11). -/
def Obligations.ResetStateReadsZero : Prop :=
  (∀ r : Reg, State.reset.readReg r = 0#32) ∧ State.reset.phase = .idle ∧ State.reset.resetLine = .ready

/-- R152, R153, R154: asserting reset gives every register its reset value. An abandoned command's destination window
holds free values, draw after draw; every other byte, and all memory if the engine was idle, is unchanged. -/
def Obligations.ResetEffect : Prop :=
  ∀ (s : State) (rest : List Event), s.mem.wf → s.events = .resetAssert :: rest →
    ∃ t, step s = .next t ∧ t.events = rest ∧ (∀ r : Reg, t.readReg r = 0#32) ∧ t.phase = .idle ∧
      t.resetLine = .asserted ∧ t.platform = s.platform ∧ t.replies = s.replies ∧
      (s.phase = .idle → t.mem = s.mem) ∧
      (s.phase = .busy →
        (∀ a, s.latched.dstWindow.contains a = false → t.mem.read a = s.mem.read a) ∧
        (∀ k, k < s.latched.dstLen.toNat → s.latched.dstBase.toNat + k < 2 ^ 32 →
          t.mem.read (s.latched.dstBase.toNat + k) = Config.freeByte (s.draws + k)) ∧
        t.draws = s.draws + s.latched.dstLen.toNat)

/-- R155, R166 (the three stages are log 11): released reset and a passed access delay let the engine accept a CMD
write. -/
def Obligations.ResetReleaseAccepts : Prop :=
  ∀ (s : State) (w : Word) (rest : List Event), s.phase = .idle → s.resetLine = .asserted →
    s.events = .resetRelease :: .resetSettled :: .regWrite 32 0x00 w :: rest →
    ∃ t u, step s = .next t ∧ step t = .next u ∧ step u = .next
      { s with
        resetLine := .ready
        cmd := w
        phase := .busy
        done := false
        err := .ok
        dropped := false
        snap := s.mem
        latched := s.regs
        events := rest }

/-- R156: with every register at its reset value CONVERT, EXTRACT and RLE_GLOBAL complete OK with L = 0, and RLE_ROW
completes as OVERFLOW with OUT_LEN = 4; none of them writes memory. -/
def Obligations.EmptyCommandsFromReset : Prop :=
  ∀ i : Instr, bpp i ≠ none →
    ∃ t, exec i (State.reset.accept (encode i)) = .next t ∧ t.mem = State.reset.mem ∧
      (usesAcc i = false ∨ (∃ inBE, i = .rleGlobal inBE) → t.err = .ok ∧ t.outLen = 0) ∧
      ((∃ inBE, i = .rleRow inBE) → t.err = .overflow ∧ t.outLen = 4)

/-! ### The host and memory -/

/-- R158, R159, R163, U8, U9, U10 (log 8: for every command): while BUSY = 1, a host access to the destination window and
a host write to the source window are hazard faults. -/
def Obligations.HazardsFault : Prop :=
  ∀ (s : State) (a : Nat) (b : Byte) (rest : List Event), s.phase = .busy →
    a < 2 ^ 32 → s.platform.regWindow.contains a = false → s.platform.ordinary ⟨a, 1⟩ = true →
    (s.latched.dstBase.toNat ≤ a → a < s.latched.dstBase.toNat + s.latched.dstLen.toNat →
      (s.events = .memRead a :: rest → step s = .fault .hazardDestRead) ∧
      (s.events = .memWrite a b :: rest → step s = .fault .hazardDestWrite)) ∧
    (s.latched.srcBase.toNat ≤ a → a < s.latched.srcBase.toNat + s.latched.srcLen.toNat →
      s.events = .memWrite a b :: rest →
      step s = .fault .hazardSourceWrite ∨ step s = .fault .hazardDestWrite)

/-- R59, R158 (log 9): after a completion a host read of the destination window still is a hazard fault; a STATUS read
that shows BUSY = 0 ends the hazard, and the next read returns the byte that memory holds. -/
def Obligations.StatusReadEndsHazard : Prop :=
  ∀ (s : State) (a : Nat) (w : Window) (rest : List Event), s.phase = .idle → s.resetLine = .ready →
    a < 2 ^ 32 → s.platform.regWindow.contains a = false → s.platform.ordinary ⟨a, 1⟩ = true →
    w ∈ s.unacked → w.contains a = true →
    (s.events = .memRead a :: rest → step s = .fault .hazardDestRead) ∧
    (s.events = .regRead 32 0x04 :: .memRead a :: rest →
      ∃ t, step s = .next t ∧ step t = .next
        { s with
          unacked := []
          events := rest
          replies := .byte (s.mem.read a) :: .reg s.status :: s.replies })

/-- R45, R56, R59: outside the hazards a host access to ordinary memory reads the byte or writes exactly that byte.
That it does so too while reset is asserted or settling is the model's reading (DEDUCED, log 21: R166 and U14 name register
accesses). -/
def Obligations.HostMemoryAccess : Prop :=
  ∀ (s : State) (a : Nat) (b : Byte) (rest : List Event),
    a < 2 ^ 32 → s.platform.regWindow.contains a = false → s.platform.ordinary ⟨a, 1⟩ = true →
    (∀ w ∈ s.unacked, w.contains a = false) → (s.phase = .busy → s.latched.dstWindow.contains a = false) →
    (s.events = .memRead a :: rest →
      step s = .next { s with events := rest, replies := .byte (s.mem.read a) :: s.replies }) ∧
    (s.mem.wf → (s.phase = .busy → s.latched.srcWindow.contains a = false) → s.events = .memWrite a b :: rest →
      ∃ m : Memory, step s = .next { s with events := rest, mem := m } ∧ m.read a = b ∧
        ∀ c, c ≠ a → m.read c = s.mem.read c)

/-- R73, R164, R29: a host that waits sees BUSY = 0 and DONE = 1 after the completion, in two steps of the model (weak
fairness, log 2; the polls that return BUSY = 1 are log 14). -/
def Obligations.WaitTerminates : Prop :=
  ∀ (s : State) (rest : List Event), s.phase = .busy → s.resetLine = .ready → s.windowsOrdinary = true →
    s.events = .wait :: rest →
    ∃ t u, step s = .next t ∧ step t = .next u ∧ u.phase = .idle ∧ u.done = true ∧ u.events = rest ∧
      u.replies = .reg u.status :: s.replies ∧ u.status.getLsbD 0 = false ∧ u.status.getLsbD 1 = true

/-- R140, R143, R164: the engine by itself never stops a run: with ordinary windows, and nothing to come but the engine's
turns and a host that waits, no run ends in a fault or a refusal. -/
def Obligations.EngineAloneRunsSafely : Prop :=
  ∀ s : State, s.resetLine = .ready → s.windowsOrdinary = true → (∀ e ∈ s.events, e = .engine ∨ e = .wait) →
    SafeRun s

/-- R90, R78: a register write while a command runs does not change the command's result; it is seen in DROPPED only. -/
def Obligations.DroppedWriteKeepsResult : Prop :=
  ∀ (s : State) (offset : Nat) (v : Word) (rest : List Event),
    s.phase = .busy → s.resetLine = .ready → s.windowsOrdinary = true →
    offset ∈ [0x00, 0x08, 0x0C, 0x10, 0x14, 0x18, 0x1C, 0x20, 0x2C] →
    s.events = .regWrite 32 offset v :: .engine :: rest →
    ∃ t u, step s = .next t ∧ step t = .next u ∧ u.dropped = true ∧
      step { s with events := .engine :: rest } = .next { u with dropped := s.dropped }

/-- R43, R57, R80 (log 6: where the engine does not see the register window through the bus): on a platform with memory
everywhere a memory command that passes the register checks completes wherever its windows lie, in the register window
too: its output goes to memory, and no register changes but the ones a completion gives a value. -/
def Obligations.EngineReachesNoRegister : Prop :=
  ∀ (i : Instr) (b : Nat) (s : State), bpp i = some b → OperandsPass b s.latched →
    s.platform.notMemory = [] → s.platform.engineSeesRegs = false →
    ∃ t, exec i s = .next t ∧
      (∀ r : Reg, r ≠ .status → r ≠ .outLen → r ≠ .dstStride → t.readReg r = s.readReg r) ∧
      (s.mem.wf → t.err = .ok → ∀ (k : Nat) (h : k < (outOf i s.latched s.snap).length),
        t.mem.read (s.latched.dstBase.toNat + k) = (outOf i s.latched s.snap)[k])
end

