-- ==== Sys2Proof/Laws/Memory.lean ====
section
/-! SUPPORT. The laws of memory: a read after a write, the canonical form kept, equal memories equal data. -/

namespace Sys2Proof.Machine

namespace Memory

@[simp] theorem read_nil (a : Nat) : Memory.read [] a = unlisted := rfl

@[simp] theorem read_cons (k : Nat) (v : Byte) (m : Memory) (a : Nat) :
    Memory.read ((k, v) :: m) a = if k = a then v else Memory.read m a := rfl

theorem wf_nil : Memory.wf [] := by simp [Memory.wf]

theorem wf_cons {c : Host.Cell} {m : Memory} :
    Memory.wf (c :: m) ↔
      (∀ d ∈ m, c.1 < d.1) ∧ c.1 < Config.addrSpace ∧ c.2 ≠ unlisted ∧ Memory.wf m := by
  simp only [Memory.wf, List.pairwise_cons, List.forall_mem_cons]
  tauto

theorem wf_tail {c : Host.Cell} {m : Memory} (h : Memory.wf (c :: m)) : Memory.wf m := (wf_cons.1 h).2.2.2

/-- Below every listed address a memory reads as nothing is listed. -/
theorem read_below {m : Memory} {a : Nat} (h : ∀ d ∈ m, a < d.1) : m.read a = unlisted := by
  induction m with
  | nil => rfl
  | cons c m ih =>
    have hc := h c (by simp)
    rw [show c = (c.1, c.2) from rfl, read_cons, if_neg (by omega)]
    exact ih fun d hd => h d (by simp [hd])

theorem read_consCell_self {m : Memory} {a : Nat} (b : Byte) (h : ∀ d ∈ m, a < d.1) :
    (consCell a b m).read a = b := by
  unfold consCell
  split
  · next hb => rw [read_below h, hb]
  · simp

theorem read_consCell_other (m : Memory) {a c : Nat} (b : Byte) (h : a ≠ c) :
    (consCell a b m).read c = m.read c := by
  unfold consCell
  split
  · rfl
  · simp [h]

theorem wf_consCell {m : Memory} {a : Nat} (b : Byte) (hm : m.wf) (ha : a < Config.addrSpace)
    (h : ∀ d ∈ m, a < d.1) : (consCell a b m).wf := by
  unfold consCell
  split
  · exact hm
  · next hb => exact wf_cons.2 ⟨h, ha, hb, hm⟩

/-- Where the addresses of a write come from. -/
theorem mem_write {m : Memory} {a : Nat} {b : Byte} {d : Host.Cell} (h : d ∈ m.write a b) : d ∈ m ∨ d.1 = a := by
  induction m with
  | nil =>
    simp only [write, consCell] at h
    split at h
    · simp at h
    · simp at h; simp [h]
  | cons c m ih =>
    simp only [write, consCell] at h
    split at h
    · split at h
      · exact .inl h
      · rcases List.mem_cons.1 h with rfl | h
        · exact .inr rfl
        · exact .inl h
    · split at h
      · split at h
        · exact .inl (List.mem_cons_of_mem _ h)
        · rcases List.mem_cons.1 h with rfl | h
          · exact .inr rfl
          · exact .inl (List.mem_cons_of_mem _ h)
      · rcases List.mem_cons.1 h with rfl | h
        · exact .inl (by simp)
        · rcases ih h with h | h
          · exact .inl (List.mem_cons_of_mem _ h)
          · exact .inr h

theorem write_wf {m : Memory} {a : Nat} (b : Byte) (hm : m.wf) (ha : a < Config.addrSpace) : (m.write a b).wf := by
  induction m with
  | nil => exact wf_consCell b wf_nil ha (by simp)
  | cons c m ih =>
    obtain ⟨hlt, hc, hv, ht⟩ := wf_cons.1 hm
    simp only [write]
    split
    · next h =>
      refine wf_consCell b hm ha fun d hd => ?_
      rcases List.mem_cons.1 hd with rfl | hd
      · exact h
      · exact h.trans (hlt d hd)
    · split
      · next h => exact wf_consCell b ht ha fun d hd => h ▸ hlt d hd
      · next h1 h2 =>
        refine wf_cons.2 ⟨fun d hd => ?_, hc, hv, ih ht⟩
        rcases mem_write hd with hd | hd
        · exact hlt d hd
        · simp only [hd]; omega

theorem read_write_self {m : Memory} {a : Nat} (b : Byte) (hm : m.wf) : (m.write a b).read a = b := by
  induction m with
  | nil => exact read_consCell_self b (by simp)
  | cons c m ih =>
    obtain ⟨hlt, -, -, ht⟩ := wf_cons.1 hm
    simp only [write]
    split
    · next h =>
      refine read_consCell_self b fun d hd => ?_
      rcases List.mem_cons.1 hd with rfl | hd
      · exact h
      · exact h.trans (hlt d hd)
    · split
      · next h => exact read_consCell_self b fun d hd => h ▸ hlt d hd
      · next h1 h2 => rw [read_cons, if_neg (by omega)]; exact ih ht

theorem read_write_other (m : Memory) {a c : Nat} (b : Byte) (h : a ≠ c) :
    (m.write a b).read c = m.read c := by
  induction m with
  | nil => exact read_consCell_other [] b h
  | cons d m ih =>
    simp only [write]
    split
    · exact read_consCell_other _ b h
    · split
      · next h2 =>
        rw [read_consCell_other _ b h, show d = (d.1, d.2) from rfl, read_cons, if_neg (by omega)]
      · rw [show d = (d.1, d.2) from rfl, read_cons, read_cons, ih]

theorem writeBytes_wf {m : Memory} {a : Nat} {bs : List Byte} (hm : m.wf) (h : a + bs.length ≤ Config.addrSpace) :
    (m.writeBytes a bs).wf := by
  induction bs generalizing m a with
  | nil => exact hm
  | cons b bs ih =>
    simp only [List.length_cons] at h
    exact ih (write_wf b hm (by omega)) (by omega)

theorem read_writeBytes_outside {m : Memory} {a c : Nat} {bs : List Byte} (h : c < a ∨ a + bs.length ≤ c) :
    (m.writeBytes a bs).read c = m.read c := by
  induction bs generalizing m a with
  | nil => rfl
  | cons b bs ih =>
    simp only [List.length_cons] at h
    rw [writeBytes, ih (by omega), read_write_other m b (by omega)]

theorem read_writeBytes_inside {m : Memory} {a : Nat} {bs : List Byte} (hm : m.wf)
    (ha : a + bs.length ≤ Config.addrSpace) (k : Nat) (hk : k < bs.length) :
    (m.writeBytes a bs).read (a + k) = bs[k] := by
  induction bs generalizing m a k with
  | nil => simp at hk
  | cons b bs ih =>
    simp only [List.length_cons] at ha hk
    cases k with
    | zero => rw [writeBytes, read_writeBytes_outside (by omega)]; exact read_write_self b hm
    | succ k =>
      have := ih (m := m.write a b) (a := a + 1) (write_wf b hm (by omega)) (by omega) k (by omega)
      rw [writeBytes, show a + (k + 1) = a + 1 + k by omega, this]; simp

@[simp] theorem writeBytes_nil (m : Memory) (a : Nat) : m.writeBytes a [] = m := rfl

theorem scramble_wf {m : Memory} {w : Window} (n : Nat) (hm : m.wf) (hw : w.base ≤ Config.addrSpace) :
    (m.scramble w n).wf :=
  writeBytes_wf hm (by simp only [List.length_map, List.length_range]; omega)

theorem read_scramble_outside {m : Memory} {w : Window} (n : Nat) {a : Nat} (h : w.contains a = false) :
    (m.scramble w n).read a = m.read a := by
  refine read_writeBytes_outside ?_
  simp only [Window.contains, Bool.and_eq_false_iff, decide_eq_false_iff_not] at h
  simp only [List.length_map, List.length_range]
  omega

/-- Equal memories are equal data: two canonical memories that read the same are the same list. -/
theorem eq_of_read {m n : Memory} (hm : m.wf) (hn : n.wf) (h : ∀ a, m.read a = n.read a) : m = n := by
  induction m generalizing n with
  | nil =>
    cases n with
    | nil => rfl
    | cons d n =>
      have := h d.1
      rw [show d = (d.1, d.2) from rfl, read_cons, if_pos rfl] at this
      exact absurd this.symm (wf_cons.1 hn).2.2.1
  | cons c m ih =>
    obtain ⟨hc, -, hcv, hmt⟩ := wf_cons.1 hm
    cases n with
    | nil =>
      have := h c.1
      rw [show c = (c.1, c.2) from rfl, read_cons, if_pos rfl] at this
      exact absurd this hcv
    | cons d n =>
      obtain ⟨hd, -, hdv, hnt⟩ := wf_cons.1 hn
      have key : c.1 = d.1 := by
        rcases Nat.lt_trichotomy c.1 d.1 with hlt | heq | hgt
        · have := h c.1
          rw [show c = (c.1, c.2) from rfl, read_cons, if_pos rfl] at this
          rw [read_below (m := d :: n) (a := c.1)] at this
          · exact absurd this hcv
          · intro e he
            rcases List.mem_cons.1 he with rfl | he
            · exact hlt
            · exact hlt.trans (hd e he)
        · exact heq
        · have := h d.1
          rw [show d = (d.1, d.2) from rfl, read_cons (k := d.1), if_pos rfl] at this
          rw [read_below (m := c :: m) (a := d.1)] at this
          · exact absurd this.symm hdv
          · intro e he
            rcases List.mem_cons.1 he with rfl | he
            · exact hgt
            · exact hgt.trans (hc e he)
      have hv : c.2 = d.2 := by
        have := h c.1
        rw [show c = (c.1, c.2) from rfl, show d = (d.1, d.2) from rfl, read_cons, read_cons] at this
        simpa [key] using this
      rw [Prod.ext key hv, ih hmt hnt fun a => ?_]
      have := h a
      rw [show c = (c.1, c.2) from rfl, show d = (d.1, d.2) from rfl, read_cons, read_cons] at this
      by_cases ha : d.1 = a
      · rw [read_below fun e he => ha ▸ key ▸ hc e he, read_below fun e he => ha ▸ hd e he]
      · rwa [if_neg (key ▸ ha), if_neg ha] at this

end Memory

end Sys2Proof.Machine
end

