-- ==== Sys2Proof/Laws/State.lean ====
section
/-! SUPPORT. What each update of the state does to each field, by `rfl`. -/

namespace Sys2Proof.Machine

/-! `State.accept`. -/

section

variable (s : State) (w : Word)

@[simp] theorem State.accept_cmd : (s.accept w).cmd = w := rfl
@[simp] theorem State.accept_phase : (s.accept w).phase = .busy := rfl
@[simp] theorem State.accept_done : (s.accept w).done = false := rfl
@[simp] theorem State.accept_err : (s.accept w).err = .ok := rfl
@[simp] theorem State.accept_dropped : (s.accept w).dropped = false := rfl
@[simp] theorem State.accept_regs : (s.accept w).regs = s.regs := rfl
@[simp] theorem State.accept_dstStride : (s.accept w).dstStride = s.dstStride := rfl
@[simp] theorem State.accept_outLen : (s.accept w).outLen = s.outLen := rfl
@[simp] theorem State.accept_packOut : (s.accept w).packOut = s.packOut := rfl
@[simp] theorem State.accept_latched : (s.accept w).latched = s.regs := rfl
@[simp] theorem State.accept_snap : (s.accept w).snap = s.mem := rfl
@[simp] theorem State.accept_acc : (s.accept w).acc = s.acc := rfl
@[simp] theorem State.accept_resetLine : (s.accept w).resetLine = s.resetLine := rfl
@[simp] theorem State.accept_mem : (s.accept w).mem = s.mem := rfl
@[simp] theorem State.accept_unacked : (s.accept w).unacked = s.unacked := rfl
@[simp] theorem State.accept_platform : (s.accept w).platform = s.platform := rfl
@[simp] theorem State.accept_draws : (s.accept w).draws = s.draws := rfl
@[simp] theorem State.accept_events : (s.accept w).events = s.events := rfl
@[simp] theorem State.accept_replies : (s.accept w).replies = s.replies := rfl

end

/-! `State.drop`. -/

section

variable (s : State)

@[simp] theorem State.drop_cmd : (s.drop).cmd = s.cmd := rfl
@[simp] theorem State.drop_phase : (s.drop).phase = s.phase := rfl
@[simp] theorem State.drop_done : (s.drop).done = s.done := rfl
@[simp] theorem State.drop_err : (s.drop).err = s.err := rfl
@[simp] theorem State.drop_dropped : (s.drop).dropped = true := rfl
@[simp] theorem State.drop_regs : (s.drop).regs = s.regs := rfl
@[simp] theorem State.drop_dstStride : (s.drop).dstStride = s.dstStride := rfl
@[simp] theorem State.drop_outLen : (s.drop).outLen = s.outLen := rfl
@[simp] theorem State.drop_packOut : (s.drop).packOut = s.packOut := rfl
@[simp] theorem State.drop_latched : (s.drop).latched = s.latched := rfl
@[simp] theorem State.drop_snap : (s.drop).snap = s.snap := rfl
@[simp] theorem State.drop_acc : (s.drop).acc = s.acc := rfl
@[simp] theorem State.drop_resetLine : (s.drop).resetLine = s.resetLine := rfl
@[simp] theorem State.drop_mem : (s.drop).mem = s.mem := rfl
@[simp] theorem State.drop_unacked : (s.drop).unacked = s.unacked := rfl
@[simp] theorem State.drop_platform : (s.drop).platform = s.platform := rfl
@[simp] theorem State.drop_draws : (s.drop).draws = s.draws := rfl
@[simp] theorem State.drop_events : (s.drop).events = s.events := rfl
@[simp] theorem State.drop_replies : (s.drop).replies = s.replies := rfl

end

/-! `State.complete`. -/

section

variable (s : State) (e : ErrCode)

@[simp] theorem State.complete_cmd : (s.complete e).cmd = s.cmd := rfl
@[simp] theorem State.complete_phase : (s.complete e).phase = .idle := rfl
@[simp] theorem State.complete_done : (s.complete e).done = true := rfl
@[simp] theorem State.complete_err : (s.complete e).err = e := rfl
@[simp] theorem State.complete_dropped : (s.complete e).dropped = s.dropped := rfl
@[simp] theorem State.complete_regs : (s.complete e).regs = s.regs := rfl
@[simp] theorem State.complete_dstStride : (s.complete e).dstStride = s.dstStride := rfl
@[simp] theorem State.complete_outLen : (s.complete e).outLen = s.outLen := rfl
@[simp] theorem State.complete_packOut : (s.complete e).packOut = s.packOut := rfl
@[simp] theorem State.complete_latched : (s.complete e).latched = s.latched := rfl
@[simp] theorem State.complete_snap : (s.complete e).snap = s.snap := rfl
@[simp] theorem State.complete_acc : (s.complete e).acc = s.acc := rfl
@[simp] theorem State.complete_resetLine : (s.complete e).resetLine = s.resetLine := rfl
@[simp] theorem State.complete_mem : (s.complete e).mem = s.mem := rfl
@[simp] theorem State.complete_unacked : (s.complete e).unacked = s.latched.dstWindow :: s.unacked := rfl
@[simp] theorem State.complete_platform : (s.complete e).platform = s.platform := rfl
@[simp] theorem State.complete_draws : (s.complete e).draws = s.draws := rfl
@[simp] theorem State.complete_events : (s.complete e).events = s.events := rfl
@[simp] theorem State.complete_replies : (s.complete e).replies = s.replies := rfl

end

/-! `State.raise`. -/

section

variable (s : State) (e : ErrCode)

@[simp] theorem State.raise_cmd : (s.raise e).cmd = s.cmd := rfl
@[simp] theorem State.raise_phase : (s.raise e).phase = .idle := rfl
@[simp] theorem State.raise_done : (s.raise e).done = true := rfl
@[simp] theorem State.raise_err : (s.raise e).err = e := rfl
@[simp] theorem State.raise_dropped : (s.raise e).dropped = s.dropped := rfl
@[simp] theorem State.raise_regs : (s.raise e).regs = s.regs := rfl
@[simp] theorem State.raise_dstStride : (s.raise e).dstStride = s.dstStride := rfl
@[simp] theorem State.raise_outLen : (s.raise e).outLen = 0 := rfl
@[simp] theorem State.raise_packOut : (s.raise e).packOut = s.packOut := rfl
@[simp] theorem State.raise_latched : (s.raise e).latched = s.latched := rfl
@[simp] theorem State.raise_snap : (s.raise e).snap = s.snap := rfl
@[simp] theorem State.raise_acc : (s.raise e).acc = s.acc := rfl
@[simp] theorem State.raise_resetLine : (s.raise e).resetLine = s.resetLine := rfl
@[simp] theorem State.raise_mem : (s.raise e).mem = s.mem := rfl
@[simp] theorem State.raise_unacked : (s.raise e).unacked = s.latched.dstWindow :: s.unacked := rfl
@[simp] theorem State.raise_platform : (s.raise e).platform = s.platform := rfl
@[simp] theorem State.raise_draws : (s.raise e).draws = s.draws := rfl
@[simp] theorem State.raise_events : (s.raise e).events = s.events := rfl
@[simp] theorem State.raise_replies : (s.raise e).replies = s.replies := rfl

end

/-! `State.assertReset`. -/

section

variable (s : State)

@[simp] theorem State.assertReset_cmd : (s.assertReset).cmd = 0 := rfl
@[simp] theorem State.assertReset_phase : (s.assertReset).phase = .idle := rfl
@[simp] theorem State.assertReset_done : (s.assertReset).done = false := rfl
@[simp] theorem State.assertReset_err : (s.assertReset).err = .ok := rfl
@[simp] theorem State.assertReset_dropped : (s.assertReset).dropped = false := rfl
@[simp] theorem State.assertReset_regs : (s.assertReset).regs = Regs.reset := rfl
@[simp] theorem State.assertReset_dstStride : (s.assertReset).dstStride = 0 := rfl
@[simp] theorem State.assertReset_outLen : (s.assertReset).outLen = 0 := rfl
@[simp] theorem State.assertReset_packOut : (s.assertReset).packOut = 0 := rfl
@[simp] theorem State.assertReset_latched : (s.assertReset).latched = Regs.reset := rfl
@[simp] theorem State.assertReset_snap : (s.assertReset).snap = [] := rfl
@[simp] theorem State.assertReset_acc : (s.assertReset).acc = RleAcc.init := rfl
@[simp] theorem State.assertReset_resetLine : (s.assertReset).resetLine = .asserted := rfl
@[simp] theorem State.assertReset_mem :
    (s.assertReset).mem = if s.phase.isBusy then s.mem.scramble s.latched.dstWindow s.draws else s.mem := rfl
@[simp] theorem State.assertReset_unacked : (s.assertReset).unacked = s.unacked := rfl
@[simp] theorem State.assertReset_platform : (s.assertReset).platform = s.platform := rfl
@[simp] theorem State.assertReset_draws :
    (s.assertReset).draws = if s.phase.isBusy then s.draws + s.latched.dstLen.toNat else s.draws := rfl
@[simp] theorem State.assertReset_events : (s.assertReset).events = s.events := rfl
@[simp] theorem State.assertReset_replies : (s.assertReset).replies = s.replies := rfl

end

/-! `State.releaseReset`. -/

section

variable (s : State)

@[simp] theorem State.releaseReset_cmd : (s.releaseReset).cmd = s.cmd := rfl
@[simp] theorem State.releaseReset_phase : (s.releaseReset).phase = s.phase := rfl
@[simp] theorem State.releaseReset_done : (s.releaseReset).done = s.done := rfl
@[simp] theorem State.releaseReset_err : (s.releaseReset).err = s.err := rfl
@[simp] theorem State.releaseReset_dropped : (s.releaseReset).dropped = s.dropped := rfl
@[simp] theorem State.releaseReset_regs : (s.releaseReset).regs = s.regs := rfl
@[simp] theorem State.releaseReset_dstStride : (s.releaseReset).dstStride = s.dstStride := rfl
@[simp] theorem State.releaseReset_outLen : (s.releaseReset).outLen = s.outLen := rfl
@[simp] theorem State.releaseReset_packOut : (s.releaseReset).packOut = s.packOut := rfl
@[simp] theorem State.releaseReset_latched : (s.releaseReset).latched = s.latched := rfl
@[simp] theorem State.releaseReset_snap : (s.releaseReset).snap = s.snap := rfl
@[simp] theorem State.releaseReset_acc : (s.releaseReset).acc = s.acc := rfl
@[simp] theorem State.releaseReset_resetLine :
    (s.releaseReset).resetLine = if s.resetLine = .asserted then .settling else s.resetLine := rfl
@[simp] theorem State.releaseReset_mem : (s.releaseReset).mem = s.mem := rfl
@[simp] theorem State.releaseReset_unacked : (s.releaseReset).unacked = s.unacked := rfl
@[simp] theorem State.releaseReset_platform : (s.releaseReset).platform = s.platform := rfl
@[simp] theorem State.releaseReset_draws : (s.releaseReset).draws = s.draws := rfl
@[simp] theorem State.releaseReset_events : (s.releaseReset).events = s.events := rfl
@[simp] theorem State.releaseReset_replies : (s.releaseReset).replies = s.replies := rfl

end

/-! `State.settleReset`. -/

section

variable (s : State)

@[simp] theorem State.settleReset_cmd : (s.settleReset).cmd = s.cmd := rfl
@[simp] theorem State.settleReset_phase : (s.settleReset).phase = s.phase := rfl
@[simp] theorem State.settleReset_done : (s.settleReset).done = s.done := rfl
@[simp] theorem State.settleReset_err : (s.settleReset).err = s.err := rfl
@[simp] theorem State.settleReset_dropped : (s.settleReset).dropped = s.dropped := rfl
@[simp] theorem State.settleReset_regs : (s.settleReset).regs = s.regs := rfl
@[simp] theorem State.settleReset_dstStride : (s.settleReset).dstStride = s.dstStride := rfl
@[simp] theorem State.settleReset_outLen : (s.settleReset).outLen = s.outLen := rfl
@[simp] theorem State.settleReset_packOut : (s.settleReset).packOut = s.packOut := rfl
@[simp] theorem State.settleReset_latched : (s.settleReset).latched = s.latched := rfl
@[simp] theorem State.settleReset_snap : (s.settleReset).snap = s.snap := rfl
@[simp] theorem State.settleReset_acc : (s.settleReset).acc = s.acc := rfl
@[simp] theorem State.settleReset_resetLine :
    (s.settleReset).resetLine = if s.resetLine = .settling then .ready else s.resetLine := rfl
@[simp] theorem State.settleReset_mem : (s.settleReset).mem = s.mem := rfl
@[simp] theorem State.settleReset_unacked : (s.settleReset).unacked = s.unacked := rfl
@[simp] theorem State.settleReset_platform : (s.settleReset).platform = s.platform := rfl
@[simp] theorem State.settleReset_draws : (s.settleReset).draws = s.draws := rfl
@[simp] theorem State.settleReset_events : (s.settleReset).events = s.events := rfl
@[simp] theorem State.settleReset_replies : (s.settleReset).replies = s.replies := rfl

end

end Sys2Proof.Machine
end

