-- ==== Sys2Proof/Laws/Ops.lean ====
section
/-! SUPPORT. What each shared operation can do, said once; proofs cite these and do not unfold the operations. -/

namespace Sys2Proof.Machine

variable {s t : State}

@[simp] theorem Phase.isBusy_iff (p : Phase) : p.isBusy = true ↔ p = .busy := by cases p <;> simp [Phase.isBusy]

theorem Window.contains_iff (w : Window) (a : Nat) :
    w.contains a = true ↔ w.base ≤ a ∧ a < w.base + w.len := by simp [Window.contains]

theorem Window.overlaps_iff (v w : Window) :
    v.overlaps w = true ↔ 0 < v.len ∧ 0 < w.len ∧ v.base < w.base + w.len ∧ w.base < v.base + v.len := by
  simp [Window.overlaps, and_assoc]

theorem windows_overlap_iff (r : Regs) : r.srcWindow.overlaps r.dstWindow = true ↔ ¬WindowsApart r := by
  rw [Window.overlaps_iff]
  exact Iff.symm not_not

theorem ordinary_eq_false_iff (p : Platform) (w : Window) :
    p.ordinary w = false ↔ ∃ r ∈ p.notMemory, r.overlaps w = true := by simp [Platform.ordinary]

/-- What makes an engine window no ordinary memory. -/
theorem engineOrdinary_eq_false_iff (p : Platform) (w : Window) :
    p.engineOrdinary w = false ↔
      (∃ r ∈ p.notMemory, r.overlaps w = true) ∨ (p.engineSeesRegs = true ∧ p.regWindow.overlaps w = true) := by
  rw [← ordinary_eq_false_iff]
  simp only [Platform.engineOrdinary, Bool.and_eq_false_iff, Bool.not_eq_false', Bool.and_eq_true]

theorem windowsOrdinary_eq_false_iff :
    s.windowsOrdinary = false ↔
      s.platform.engineOrdinary s.latched.srcWindow = false ∨ s.platform.engineOrdinary s.latched.dstWindow = false := by
  simp only [State.windowsOrdinary, Bool.and_eq_false_iff]

/-- R43: on a platform with memory everywhere and the register window not on the engine's bus, every window is ordinary
memory. -/
theorem windowsOrdinary_of_memory_everywhere (hm : s.platform.notMemory = []) (hr : s.platform.engineSeesRegs = false) :
    s.windowsOrdinary = true := by simp [State.windowsOrdinary, Platform.engineOrdinary, Platform.ordinary, hm, hr]

/-- The register checks of R82 to R85 pass together exactly when each does. -/
theorem checkOperands_none_iff (b : Nat) (r : Regs) : checkOperands b r = none ↔ OperandsPass b r := by
  have h := windows_overlap_iff r
  unfold checkOperands OperandsPass StrideCovers LengthCovers WindowsInRange Config.addrSpace
  split_ifs with h1 h2 h3 h4 <;> simp <;> try omega
  · intro _ _ _ _; exact h.1 h4
  · refine ⟨by omega, by omega, by omega, ?_⟩; rw [h] at h4; simpa using h4

/-- R82, R83. -/
theorem checkOperands_malformed_iff (b : Nat) (r : Regs) :
    checkOperands b r = some .malformed ↔ ¬(StrideCovers b r ∧ LengthCovers r) := by
  unfold checkOperands StrideCovers LengthCovers
  split_ifs <;> simp <;> omega

/-- R84, after R82 and R83. -/
theorem checkOperands_range_iff (b : Nat) (r : Regs) :
    checkOperands b r = some .range ↔ StrideCovers b r ∧ LengthCovers r ∧ ¬WindowsInRange r := by
  unfold checkOperands StrideCovers LengthCovers WindowsInRange Config.addrSpace
  split_ifs <;> simp <;> omega

/-- R85, after R82 to R84. -/
theorem checkOperands_overlap_iff (b : Nat) (r : Regs) :
    checkOperands b r = some .overlap ↔
      StrideCovers b r ∧ LengthCovers r ∧ WindowsInRange r ∧ ¬WindowsApart r := by
  rw [← windows_overlap_iff]
  unfold checkOperands StrideCovers LengthCovers WindowsInRange Config.addrSpace
  split_ifs with h1 h2 h3 h4 <;> simp [*] <;> omega

section

variable (b : Nat) (len : Regs → Memory → Nat) (out : Regs → Memory → List Byte) (stride : Regs → Word → Word)

/-- A memory command whose register checks fail ends with that error (R80). -/
theorem runMemory_of_check {e : ErrCode} (h : checkOperands b s.latched = some e) :
    s.runMemory b len out stride = .next (s.raise e) := by simp [State.runMemory, h]

/-- A memory command whose windows are not ordinary memory is refused (log 5, log 6). -/
theorem runMemory_of_not_ordinary (h : checkOperands b s.latched = none) (ho : s.windowsOrdinary = false) :
    s.runMemory b len out stride = .refused .windowNotMemory := by simp [State.runMemory, h, ho]

/-- R86: the output does not fit. -/
theorem runMemory_of_overflow (h : checkOperands b s.latched = none) (ho : s.windowsOrdinary = true)
    (hn : s.latched.dstLen.toNat < len s.latched s.snap) :
    s.runMemory b len out stride = .next (State.complete
      { s with
        outLen := sat32 (len s.latched s.snap)
        dstStride := stride s.latched s.dstStride } .overflow) := by
  simp [State.runMemory, h, ho, hn]

/-- R80, R53: the output is written. -/
theorem runMemory_of_fits (h : checkOperands b s.latched = none) (ho : s.windowsOrdinary = true)
    (hn : len s.latched s.snap ≤ s.latched.dstLen.toNat) :
    s.runMemory b len out stride = .next (State.complete
      { s with
        mem := if len s.latched s.snap = 0 then s.mem
          else s.mem.writeBytes s.latched.dstBase.toNat (out s.latched s.snap)
        outLen := BitVec.ofNat 32 (len s.latched s.snap)
        dstStride := stride s.latched s.dstStride } .ok) := by
  have : ¬s.latched.dstLen.toNat < len s.latched s.snap := by omega
  simp [State.runMemory, h, ho, this]

/-- Everything a memory command that goes on can do. -/
theorem runMemory_cases (h : s.runMemory b len out stride = .next t) :
    (∃ e, checkOperands b s.latched = some e ∧ t = s.raise e) ∨
    (checkOperands b s.latched = none ∧ s.windowsOrdinary = true ∧
      s.latched.dstLen.toNat < len s.latched s.snap ∧
      t = State.complete
        { s with
          outLen := sat32 (len s.latched s.snap)
          dstStride := stride s.latched s.dstStride } .overflow) ∨
    (checkOperands b s.latched = none ∧ s.windowsOrdinary = true ∧
      len s.latched s.snap ≤ s.latched.dstLen.toNat ∧
      t = State.complete
        { s with
          mem := if len s.latched s.snap = 0 then s.mem
            else s.mem.writeBytes s.latched.dstBase.toNat (out s.latched s.snap)
          outLen := BitVec.ofNat 32 (len s.latched s.snap)
          dstStride := stride s.latched s.dstStride } .ok) := by
  cases hc : checkOperands b s.latched with
  | some e =>
    rw [runMemory_of_check b len out stride hc] at h
    exact .inl ⟨e, rfl, (Host.Outcome.next.inj h).symm⟩
  | none =>
    cases ho : s.windowsOrdinary with
    | false => rw [runMemory_of_not_ordinary b len out stride hc ho] at h; cases h
    | true =>
      rcases Nat.lt_or_ge s.latched.dstLen.toNat (len s.latched s.snap) with hn | hn
      · rw [runMemory_of_overflow b len out stride hc ho hn] at h
        exact .inr (.inl ⟨rfl, rfl, hn, (Host.Outcome.next.inj h).symm⟩)
      · rw [runMemory_of_fits b len out stride hc ho hn] at h
        exact .inr (.inr ⟨rfl, rfl, hn, (Host.Outcome.next.inj h).symm⟩)

end

/-- A register access is inside the interface exactly when all of R4, R25 and R166 allow it. -/
theorem regAccess_none_iff (bits offset : Nat) :
    regAccess s bits offset = none ↔ s.resetLine = .ready ∧ regAccessWf bits offset = true := by
  unfold regAccess regAccessWf
  split_ifs <;> simp_all

theorem hostRegWrite_of_access {bits offset : Nat} (v : Word) (h : regAccess s bits offset = none) :
    hostRegWrite bits offset v s = .next (s.writeOffset offset v) := by simp [hostRegWrite, h]

theorem hostRegWrite_next {bits offset : Nat} {v : Word} (h : hostRegWrite bits offset v s = .next t) :
    regAccess s bits offset = none ∧ t = s.writeOffset offset v := by
  unfold hostRegWrite at h
  split at h
  · cases h
  · exact ⟨‹_›, (Host.Outcome.next.inj h).symm⟩

theorem hostRegRead_next {bits offset : Nat} (h : hostRegRead bits offset s = .next t) :
    regAccess s bits offset = none ∧
      t = { s.acknowledge offset with replies := .reg (s.readOffset offset) :: s.replies } := by
  unfold hostRegRead at h
  split at h
  · cases h
  · exact ⟨‹_›, (Host.Outcome.next.inj h).symm⟩

/-- A host byte access is plain memory exactly when R45, R25 and R57 allow it. -/
theorem memAccess_none_iff (addr : Nat) :
    memAccess s addr = none ↔
      addr < Config.addrSpace ∧ s.platform.regWindow.contains addr = false
        ∧ s.platform.ordinary ⟨addr, 1⟩ = true := by
  unfold memAccess
  split_ifs <;> simp_all

theorem memAccess_not_next {addr : Nat} (h : memAccess s addr = some (.next t)) : False := by
  unfold memAccess at h
  split_ifs at h <;> simp at h

theorem hostMemRead_next {addr : Nat} (h : hostMemRead addr s = .next t) :
    memAccess s addr = none ∧ s.destHazard addr = false ∧
      t = { s with replies := .byte (s.mem.read addr) :: s.replies } := by
  unfold hostMemRead at h
  split at h
  · next o ho => subst h; exact (memAccess_not_next ho).elim
  · split at h
    · cases h
    · exact ⟨‹_›, by simpa using ‹¬s.destHazard addr = true›, (Host.Outcome.next.inj h).symm⟩

theorem hostMemWrite_next {addr : Nat} {b : Byte} (h : hostMemWrite addr b s = .next t) :
    memAccess s addr = none ∧ s.destHazard addr = false ∧ s.sourceHazard addr = false ∧
      t = { s with mem := s.mem.write addr b } := by
  unfold hostMemWrite at h
  split at h
  · next o ho => subst h; exact (memAccess_not_next ho).elim
  · split at h
    · cases h
    · split at h
      · cases h
      · exact ⟨‹_›, by simpa using ‹¬s.destHazard addr = true›, by simpa using ‹¬s.sourceHazard addr = true›,
          (Host.Outcome.next.inj h).symm⟩

/-- Everything a register write can do (R23, R77, R78). -/
theorem writeOffset_cases (offset : Nat) (v : Word) :
    s.writeOffset offset v = s ∨
    (s.phase = .busy ∧ s.writeOffset offset v = s.drop) ∨
    (s.phase = .idle ∧ s.writeOffset offset v = s.accept v) ∨
    (s.phase = .idle ∧ ∃ r, s.writeOffset offset v = { s with regs := s.regs.set v r }) := by
  unfold State.writeOffset
  split
  · exact .inl rfl
  · next r _ =>
    split
    · split
      · next h => exact .inr (.inl ⟨(Phase.isBusy_iff _).1 h, rfl⟩)
      · next h =>
        have hi : s.phase = .idle := by cases hp : s.phase <;> simp_all [Phase.isBusy]
        split
        · exact .inr (.inr (.inl ⟨hi, rfl⟩))
        · exact .inr (.inr (.inr ⟨hi, r, rfl⟩))
    · exact .inl rfl

/-- A STATUS read changes the hazard marks only (R59, R158). -/
theorem acknowledge_cases (offset : Nat) :
    s.acknowledge offset = s ∨ (s.phase = .idle ∧ s.acknowledge offset = { s with unacked := [] }) := by
  unfold State.acknowledge
  split
  · next h => exact .inr ⟨h.2, rfl⟩
  · exact .inl rfl

@[simp] theorem exec_nop : exec .nop s = execNop s := rfl

@[simp] theorem exec_pack : exec .pack s = execPack s := rfl

@[simp] theorem exec_convert (inBE : Bool) : exec (.convert inBE) s = execConvert inBE s := rfl

@[simp] theorem exec_extract (inBE outBE : Bool) : exec (.extract inBE outBE) s = execExtract inBE outBE s := rfl

@[simp] theorem exec_rleRow (inBE : Bool) : exec (.rleRow inBE) s = execRleRow inBE s := rfl

@[simp] theorem exec_rleGlobal (inBE : Bool) : exec (.rleGlobal inBE) s = execRleGlobal inBE s := rfl

theorem step_of_run {i : Instr} {s' : State} (h : nextTurn s = .run i s') : step s = exec i s' := by
  simp [step, h]

theorem step_of_other {o : Host.Outcome State Fault Refusal} (h : nextTurn s = .other o) : step s = o := by
  simp [step, h]

/-- Everything the engine's turn can do. -/
theorem engineTurn_cases (s : State) :
    (s.phase = .idle ∧ engineTurn s = .other (.next s)) ∨
    (s.phase = .busy ∧ ∃ i, decode s.cmd = .ok i ∧ engineTurn s = .run i s) ∨
    (s.phase = .busy ∧ ∃ e, decode s.cmd = .error e ∧ engineTurn s = .other (.next (s.complete .illegal))) := by
  unfold engineTurn
  cases hp : s.phase with
  | idle => exact .inl ⟨rfl, rfl⟩
  | busy =>
    cases hd : decode s.cmd with
    | ok i => exact .inr (.inl ⟨rfl, i, rfl, rfl⟩)
    | error e => exact .inr (.inr ⟨rfl, e, rfl, rfl⟩)

/-- What one step that goes on can have done. `es` are the events left. -/
inductive StepCase (s t : State) : Prop where
  /-- A decoded command ran and completed. -/
  | command (es : List Event) (i : Instr) (busy : s.phase = .busy) (dec : decode s.cmd = .ok i)
      (run : exec i { s with events := es } = .next t)
  /-- An illegal word completed. -/
  | illegal (es : List Event) (e : Reject) (busy : s.phase = .busy) (dec : decode s.cmd = .error e)
      (eq : t = State.complete { s with events := es } .illegal)
  /-- The engine was idle and it was its turn. -/
  | idle (es : List Event) (idle : s.phase = .idle) (eq : t = { s with events := es })
  /-- The host wrote a register. -/
  | regWrite (es : List Event) (bits offset : Nat) (v : Word) (access : regAccess s bits offset = none)
      (eq : t = State.writeOffset { s with events := es } offset v)
  /-- The host read a register. -/
  | regRead (es : List Event) (bits offset : Nat) (access : regAccess s bits offset = none)
      (eq : t = { State.acknowledge { s with events := es } offset with
        replies := .reg (s.readOffset offset) :: s.replies })
  /-- The host wrote a byte of memory. -/
  | memWrite (es : List Event) (addr : Nat) (b : Byte) (access : memAccess s addr = none)
      (dest : s.destHazard addr = false) (source : s.sourceHazard addr = false)
      (eq : t = { s with events := es, mem := s.mem.write addr b })
  /-- The host read a byte of memory. -/
  | memRead (es : List Event) (addr : Nat) (access : memAccess s addr = none)
      (dest : s.destHazard addr = false)
      (eq : t = { s with events := es, replies := .byte (s.mem.read addr) :: s.replies })
  /-- Reset was asserted. -/
  | resetAssert (es : List Event) (eq : t = State.assertReset { s with events := es })
  /-- Reset was released. -/
  | resetRelease (es : List Event) (eq : t = State.releaseReset { s with events := es })
  /-- The access delay after reset passed. -/
  | resetSettled (es : List Event) (eq : t = State.settleReset { s with events := es })

/-- The engine's turn as a case of a step. -/
theorem engineTurn_step {es : List Event} {o : Host.Outcome State Fault Refusal}
    (ho : (match engineTurn { s with events := es } with
      | .run i s' => exec i s'
      | .other o => o) = o) (h : o = .next t) : StepCase s t := by
  subst h
  rcases engineTurn_cases { s with events := es } with ⟨hi, he⟩ | ⟨hb, i, hd, he⟩ | ⟨hb, e, hd, he⟩
  · rw [he] at ho
    exact .idle es hi (Host.Outcome.next.inj ho).symm
  · rw [he] at ho
    exact .command es i hb hd ho
  · rw [he] at ho
    exact .illegal es e hb hd (Host.Outcome.next.inj ho).symm

/-- Everything one step can do, when it answers a next state. -/
theorem step_cases (h : step s = .next t) : StepCase s t := by
  unfold step nextTurn at h
  cases he : s.events with
  | nil =>
    rw [he] at h
    exact engineTurn_step (es := s.events) rfl h
  | cons e rest =>
    rw [he] at h
    cases e with
    | engine => exact engineTurn_step rfl h
    | wait =>
      cases hp : s.phase with
      | busy =>
        have hw : waitTurn rest s = engineTurn s := by unfold waitTurn; split <;> simp_all
        simp only [hw] at h
        exact engineTurn_step (es := s.events) rfl h
      | idle =>
        have hw : waitTurn rest s = .other (hostWaitDone { s with events := rest }) := by
          unfold waitTurn; split
          · simp_all
          · rfl
        simp only [hw] at h
        obtain ⟨ha, ht⟩ := hostRegRead_next h
        exact .regRead rest 32 Reg.status.offset ha ht
    | regWrite bits offset v =>
      obtain ⟨ha, ht⟩ := hostRegWrite_next h
      exact .regWrite rest bits offset v ha ht
    | regRead bits offset =>
      obtain ⟨ha, ht⟩ := hostRegRead_next h
      exact .regRead rest bits offset ha ht
    | memWrite addr b =>
      obtain ⟨ha, hd, hs, ht⟩ := hostMemWrite_next h
      exact .memWrite rest addr b ha hd hs ht
    | memRead addr =>
      obtain ⟨ha, hd, ht⟩ := hostMemRead_next h
      exact .memRead rest addr ha hd ht
    | resetAssert => exact .resetAssert rest (Host.Outcome.next.inj h).symm
    | resetRelease => exact .resetRelease rest (Host.Outcome.next.inj h).symm
    | resetSettled => exact .resetSettled rest (Host.Outcome.next.inj h).symm

/-- An invariant that every step keeps holds of every state reached. -/
theorem Reaches.invariant {P : State → Prop} (hstep : ∀ s t, P s → Machine.step s = .next t → P t) (h : Reaches s t)
    (hs : P s) : P t := by
  induction h with
  | refl => exact hs
  | step t u _ ht ih => exact hstep _ _ ih ht

/-- Every register's offset is a 32-bit access of the window (R23, R25). -/
@[simp] theorem offset_wf (r : Reg) : regAccessWf 32 r.offset = true := by cases r <;> rfl

/-- The byte writes of an `MW` whose bytes all have an address of R45 are well formed. -/
theorem memWrites_wf {addr : Nat} {bs : List Byte} (h : addr + bs.length ≤ Config.addrSpace) :
    ∀ e ∈ memWrites addr bs, e.wf = true := by
  induction bs generalizing addr with
  | nil => simp [memWrites]
  | cons b bs ih =>
    simp only [List.length_cons] at h
    intro e he
    rcases List.mem_cons.1 he with rfl | he
    · simp only [Event.wf, decide_eq_true_eq]; omega
    · exact ih (by omega) e he

/-- R72, R73: a well-formed line of a host program makes only accesses inside the interface. -/
theorem hostStmt_events_wf {l : HostStmt} (h : l.wf = true) : ∀ e ∈ l.events, e.wf = true := by
  cases l with
  | wr _ _ | rd _ | cmd _ _ _ | check _ | wait => simp [HostStmt.events, Event.wf]
  | mw addr bytes =>
    simp only [HostStmt.wf, byteRangeWf, Bool.and_eq_true, decide_eq_true_eq] at h
    exact memWrites_wf h.2
  | mr addr count =>
    simp only [HostStmt.wf, byteRangeWf, Bool.and_eq_true, decide_eq_true_eq] at h
    simp only [HostStmt.events, List.mem_map, List.mem_range]
    rintro _ ⟨k, hk, rfl⟩
    simp only [Event.wf, decide_eq_true_eq]; omega

end Sys2Proof.Machine
end

