-- ==== Sys2Proof/Laws/PerInstr.lean ====
section
/-! SUPPORT. Laws proved instruction by instruction. `EncodesFields` (30_encoding.md R63 to R65): the word of a command
has RSVD = 0, the opcode of its mnemonic, and 0 in every bit it ignores. -/

namespace Sys2Proof.Laws.EncodesFields

def Statement (i : Instr) : Prop :=
  cmdRsvd (encode i) = 0#26 ∧ cmdOp (encode i) = i.mnemonic.opcode ∧ encode i &&& i.usedBits = encode i

theorem nop : Statement .nop := by unfold Statement; decide

theorem pack : Statement .pack := by unfold Statement; decide

theorem convert (inBE : Bool) : Statement (.convert inBE) := by unfold Statement; revert inBE; decide

theorem extract (inBE outBE : Bool) : Statement (.extract inBE outBE) := by
  unfold Statement; revert inBE outBE; decide

theorem rleRow (inBE : Bool) : Statement (.rleRow inBE) := by unfold Statement; revert inBE; decide

theorem rleGlobal (inBE : Bool) : Statement (.rleGlobal inBE) := by unfold Statement; revert inBE; decide

end Sys2Proof.Laws.EncodesFields
end

