-- ==== Sys2Proof/Laws/RunLength.lean ====
section
/-! SUPPORT. The small lemmas of the byte sequences and of the run fold. -/

namespace Sys2Proof.Machine

@[simp] theorem le16_length (v : Half) : (le16 v).length = 2 := rfl

@[simp] theorem be16_length (v : Half) : (be16 v).length = 2 := rfl

@[simp] theorem word_length (be : Bool) (v : Half) : (word be v).length = 2 := by cases be <;> rfl

@[simp] theorem tok_length (t : Token) : (tok t).length = 4 := rfl

@[simp] theorem marker_length : marker.length = 2 := rfl

@[simp] theorem header_length (w h : Nat) : (header w h).length = 4 := rfl

@[simp] theorem rowVals_length (be : Bool) (r : Regs) (m : Memory) (y : Nat) :
    (rowVals be r m y).length = r.width.toNat := by simp [rowVals]

@[simp] theorem foldRuns_nil (a : RleAcc) : foldRuns a [] = (a, []) := rfl

theorem foldRuns_cons (a : RleAcc) (v : Half) (vs : List Half) :
    foldRuns a (v :: vs) =
      ((foldRuns (stepRun a v).1 vs).1, (stepRun a v).2 ++ (foldRuns (stepRun a v).1 vs).2) := rfl

/-- Folding a sequence in two parts. -/
theorem foldRuns_append (a : RleAcc) (us vs : List Half) :
    foldRuns a (us ++ vs) =
      ((foldRuns (foldRuns a us).1 vs).1, (foldRuns a us).2 ++ (foldRuns (foldRuns a us).1 vs).2) := by
  induction us generalizing a with
  | nil => simp
  | cons u us ih => simp only [List.cons_append, foldRuns_cons, ih, List.append_assoc]

/-- Every step leaves a pending run of the value it consumed. -/
theorem stepRun_pending (a : RleAcc) (v : Half) :
    (stepRun a v).1.hasPending = true ∧ (stepRun a v).1.pendingValue = v := by
  unfold stepRun
  split_ifs <;> exact ⟨rfl, rfl⟩

/-- R44: the pending run keeps its range. -/
theorem stepRun_range (a : RleAcc) (v : Half) (h : 1 ≤ a.pendingRun ∧ a.pendingRun ≤ runMax) :
    1 ≤ (stepRun a v).1.pendingRun ∧ (stepRun a v).1.pendingRun ≤ runMax := by
  unfold stepRun
  unfold runMax at *
  split_ifs <;> constructor <;> dsimp only <;> omega

/-- Equal values below the cap only lengthen the pending run. -/
theorem foldRuns_replicate (v : Half) (k n : Nat) (h : k + n ≤ runMax) :
    foldRuns ⟨true, v, k⟩ (List.replicate n v) = (⟨true, v, k + n⟩, []) := by
  induction n generalizing k with
  | zero => rfl
  | succ n ih =>
    have hs : stepRun ⟨true, v, k⟩ v = (⟨true, v, k + 1⟩, []) := by
      have hk : k < runMax := by omega
      simp [stepRun, hk]
    rw [List.replicate_succ, foldRuns_cons, hs]
    dsimp only
    rw [ih (k + 1) (by omega), show k + 1 + n = k + (n + 1) by omega]
    rfl

end Sys2Proof.Machine
end

