-- ==== Sys2Proof/Tests/Slice0.lean ====
section
/-! SUPPORT. Tests on fixed values: words written out bit by bit from 30_encoding.md, ill-formed terms that WellFormed
refuses, vectors of 95_test_vectors.md (named V-...), and for each statement a state that meets its hypotheses. Every
expected value comes from spec/. -/

namespace Sys2Proof.Tests

open Sys2Proof.Machine Sys2Proof.Reader

/-! ### Helpers -/

/-- A state that runs a command with operands `r` on the memory `m`. -/
def busyState (r : Regs) (m : Memory) : State :=
  { State.reset with
    phase := .busy
    regs := r
    latched := r
    snap := m
    mem := m }

/-- Operands in the order of R23, PACK_IN = 0. -/
def operands (w h sb ss sl db dl : Nat) : Regs :=
  ⟨.ofNat 32 w, .ofNat 32 h, .ofNat 32 sb, .ofNat 32 ss, .ofNat 32 sl, .ofNat 32 db, .ofNat 32 dl, 0⟩

/-- The state after an outcome that goes on. -/
def after (o : Host.Outcome State Fault Refusal) : State :=
  match o with
  | .next t => t
  | .fault _ => State.reset
  | .refused _ => State.reset

def isNext (o : Host.Outcome State Fault Refusal) : Bool :=
  match o with
  | .next _ => true
  | .fault _ => false
  | .refused _ => false

def bytesAt (m : Memory) (a n : Nat) : List Byte := (List.range n).map fun k => m.read (a + k)

/-- IMG3x2 (95_test_vectors.md section 4). -/
def img3x2 : Memory := Memory.writeBytes [] 0x100
  [0x00, 0x00, 0xFF, 0xFF, 0x00, 0x00, 0xFF, 0xFF, 0x00, 0xFF, 0x00, 0xFF, 0xEE, 0xEE, 0xEE, 0xEE,
   0x00, 0xFF, 0x00, 0xFF, 0xFF, 0x00, 0x00, 0xFF, 0xFF, 0x00, 0x00, 0xFF, 0xEE, 0xEE, 0xEE, 0xEE]

/-- BUF3x2 (section 5). -/
def buf3x2 : Memory := Memory.writeBytes [] 0x200
  [0x00, 0xF8, 0x00, 0xF8, 0xE0, 0x07, 0x00, 0x00, 0xE0, 0x07, 0x1F, 0x00, 0x1F, 0x00, 0x00, 0x00]

def convertState : State := busyState (operands 3 2 0x100 16 32 0x200 64) img3x2

def extractState : State := busyState (operands 3 2 0x200 8 16 0x300 12) buf3x2

def rleState : State := busyState (operands 3 2 0x200 8 16 0x300 64) buf3x2

/-- The red 1x1 source of V-C-3. -/
def redState : State := busyState (operands 1 1 0x100 4 4 0x200 4) [(0x102, 0xFF), (0x103, 0xFF)]

/-! ### Decoding: words written out from R63 (RSVD, OUT_BE, IN_BE, OP) -/

theorem test_decode_nop : decode 0b00000000000000000000000000000000#32 = .ok .nop := by decide

theorem test_decode_pack_ignores_modes : decode 0b00000000000000000000000000110001#32 = .ok .pack := by decide

theorem test_decode_convert_be : decode 0b00000000000000000000000000010010#32 = .ok (.convert true) := by decide

theorem test_decode_extract_obe : decode 0b00000000000000000000000000100011#32 = .ok (.extract false true) := by decide

theorem test_decode_extract_be : decode 0b00000000000000000000000000010011#32 = .ok (.extract true false) := by decide

theorem test_decode_rle_row_be : decode 0b00000000000000000000000000010100#32 = .ok (.rleRow true) := by decide

theorem test_decode_rle_global : decode 0b00000000000000000000000000000101#32 = .ok (.rleGlobal false) := by decide

/-- V-E-18, V-E-19. -/
theorem test_decode_illegal :
    decode 0x00000042#32 = .error .reservedBits ∧ decode 0x0000000F#32 = .error .reservedOpcode := by decide

theorem test_decode_table_word :
    decodeTableWord 32 0x00000023 = some (.extract false true) ∧ decodeTableWord 32 0x00000006 = none ∧
    decodeTableWord 16 0x0002 = none := by decide

theorem test_decode_bytes_of_other_length : decodeBytes [0x01, 0x00, 0x00] = .error .notOneWord := by decide

/-! ### WellFormed refuses -/

theorem test_wf_word_reserved_bits : legalWord 0x00000040#32 = false := by decide

theorem test_wf_word_reserved_opcode : legalWord 0x00000006#32 = false := by decide

theorem test_wf_access_width : Event.wf (.regRead 16 0x04) = false := by decide

theorem test_wf_access_alignment : Event.wf (.regWrite 32 0x06 0) = false := by decide

theorem test_wf_access_window : Event.wf (.regRead 32 0x100) = false := by decide

theorem test_wf_memory_address : Event.wf (.memWrite 0x100000000 0) = false := by decide

theorem test_wf_memory_read_address : Event.wf (.memRead 0x100000000) = false := by decide

theorem test_wf_value : HostStmt.wf (.wr .width 0x100000000) = false := by decide

theorem test_wf_bytes : HostStmt.wf (.mw 0xFFFFFFFF [0, 0]) = false := by decide

theorem test_wf_count : HostStmt.wf (.mr 0xFFFFFFFF 2) = false := by decide

/-- R72: the address is below 2^32 even where no byte is named; its last value is legal. -/
theorem test_wf_address :
    HostStmt.wf (.mr 0x100000000 0) = false ∧ HostStmt.wf (.mw 0x100000000 []) = false ∧
    HostStmt.wf (.mr 0xFFFFFFFF 1) = true ∧ HostStmt.wf (.mw 0xFFFFFFFF [0]) = true := by decide

theorem test_wf_be : HostStmt.wf (.cmd .pack true false) = false := by decide

theorem test_wf_obe : HostStmt.wf (.cmd .rleRow false true) = false := by decide

theorem test_wf_check : HostStmt.wf (.check 0x100000000) = false := by decide

/-! ### Commands -/

/-- R89's example: STATUS 0x52 becomes 0x02. -/
theorem test_nop_clears_err :
    State.status { State.reset with done := true, err := .overflow } = 0x52#32 ∧
    (after (exec .nop (State.accept { State.reset with done := true, err := .overflow } 0))).status = 0x02#32 := by
  decide

/-- V-P-8, V-P-10. -/
theorem test_pack565_values : pack565 0x12 0x34 0x56 = 0x11AA#16 ∧ pack565 0xF7 0xFB 0xF7 = 0xF7DE#16 := by decide

/-- V-P-13. -/
theorem test_pack_ignores_alpha :
    (after (exec .pack (busyState { Regs.reset with packIn := 0xFFABCDEF } []))).readReg .packOut = 0x0000AE7D#32 := by
  decide

/-- V-C-1. -/
theorem test_convert_little_endian :
    bytesAt (after (exec (.convert false) convertState)).mem 0x200 16 =
        [0x00, 0xF8, 0x00, 0xF8, 0xE0, 0x07, 0x00, 0x00, 0xE0, 0x07, 0x1F, 0x00, 0x1F, 0x00, 0x00, 0x00] ∧
      (after (exec (.convert false) convertState)).dstStride = 8 ∧
      (after (exec (.convert false) convertState)).outLen = 16 := by decide

/-- V-C-2. -/
theorem test_convert_big_endian :
    bytesAt (after (exec (.convert true) convertState)).mem 0x200 16 =
      [0xF8, 0x00, 0xF8, 0x00, 0x07, 0xE0, 0x00, 0x00, 0x07, 0xE0, 0x00, 0x1F, 0x00, 0x1F, 0x00, 0x00] := by decide

/-- V-X-2. -/
theorem test_extract_swaps :
    bytesAt (after (exec (.extract false true) extractState)).mem 0x300 12 =
      [0xF8, 0x00, 0xF8, 0x00, 0x07, 0xE0, 0x07, 0xE0, 0x00, 0x1F, 0x00, 0x1F] := by decide

/-- V-X-5: odd base and odd stride. -/
theorem test_extract_odd_stride :
    bytesAt (after (exec (.extract false false) (busyState (operands 2 2 1 5 10 0x300 8)
      (Memory.writeBytes [] 0 [0x99, 0x34, 0x12, 0x78, 0x56, 0xEE, 0xBC, 0x9A, 0xF0, 0xDE, 0xEE])))).mem 0x300 8 =
      [0x34, 0x12, 0x78, 0x56, 0xBC, 0x9A, 0xF0, 0xDE] := by decide

/-- V-RR-1. -/
theorem test_rle_row :
    bytesAt (after (exec (.rleRow false) rleState)).mem 0x300 24 =
      [0x03, 0x00, 0x02, 0x00, 0x02, 0x00, 0x00, 0xF8, 0x01, 0x00, 0xE0, 0x07, 0x00, 0x00,
       0x01, 0x00, 0xE0, 0x07, 0x02, 0x00, 0x1F, 0x00, 0x00, 0x00] := by decide

/-- V-RR-11: OUT_LEN saturates. -/
theorem test_rle_row_saturates :
    (after (exec (.rleRow false) (busyState (operands 0 0x80000000 0 0 0 0 8) []))).status = 0x52#32 ∧
    (after (exec (.rleRow false) (busyState (operands 0 0x80000000 0 0 0 0 8) []))).outLen = 0xFFFFFFFF#32 := by
  decide

/-- V-RG-1. -/
theorem test_rle_global :
    bytesAt (after (exec (.rleGlobal false) rleState)).mem 0x300 12 =
      [0x02, 0x00, 0x00, 0xF8, 0x02, 0x00, 0xE0, 0x07, 0x02, 0x00, 0x1F, 0x00] := by decide

/-- V-RG-5: no pixel, no token, even for DST_LEN = 0. -/
theorem test_rle_global_no_pixels :
    (after (exec (.rleGlobal false) (busyState (operands 3 0 0 6 0 0 0) []))).status = 0x02#32 ∧
    (after (exec (.rleGlobal false) (busyState (operands 3 0 0 6 0 0 0) []))).outLen = 0#32 := by decide

/-- V-DS-1 to V-DS-13. -/
theorem test_dest_stride :
    [0, 1, 2, 3, 4, 5, 640, 70000, 0xFFFFFFFF].map destStride = [0, 4, 4, 8, 8, 12, 1280, 140000, 2 ^ 33] := by decide

/-- V-F-3. -/
theorem test_runs : runs [5, 5, 6, 6, 6, 5] = [⟨2, 5⟩, ⟨3, 6⟩, ⟨1, 5⟩] := by decide

/-- R121: a run of 65535 is full. -/
theorem test_run_cap : stepRun ⟨true, 7, 65535⟩ 7 = (⟨true, 7, 1⟩, [⟨65535, 7⟩]) := by decide

/-- V-E-5, V-E-6, V-E-7, V-E-15: the MALFORMED checks, first stride, then length, before RANGE. -/
theorem test_checks_malformed :
    checkOperands 4 (operands 3 2 0x100 11 64 0x200 64) = some .malformed ∧
    checkOperands 4 (operands 3 2 0x100 12 23 0x200 64) = some .malformed ∧
    checkOperands 4 (operands 3 2 0x100 12 24 0x200 64) = none ∧
    checkOperands 4 (operands 3 2 0xFFFFFFF0 11 0x20 0 0) = some .malformed := by decide

/-- V-E-9, V-E-10, V-E-11, V-E-16: RANGE. -/
theorem test_checks_range :
    checkOperands 2 (operands 0 0 0xFFFFFFF0 0 0x11 0 0) = some .range ∧
    checkOperands 2 (operands 0 0 0xFFFFFFF0 0 0x10 0 0) = none ∧
    checkOperands 2 (operands 0 0 0 0 0 0xFFFFFFFF 2) = some .range ∧
    checkOperands 2 (operands 0 0 0x100 0 0x10 0x100 0xFFFFFFFF) = some .range := by decide

/-- V-E-12, V-E-13, V-E-14: OVERLAP. -/
theorem test_checks_overlap :
    checkOperands 4 (operands 3 2 0x100 12 24 0x117 1) = some .overlap ∧
    checkOperands 4 (operands 3 2 0x100 12 24 0x118 16) = none ∧
    checkOperands 4 (operands 0 2 0x100 12 24 0x108 0) = none := by decide

/-- R72, R73: one line of a host program and its event. -/
theorem test_host_notation :
    HostStmt.events (.cmd .extract true true) = [.regWrite 32 0x00 0x00000033#32] ∧
    HostStmt.events (.wr .dstLen 20) = [.regWrite 32 0x20 0x00000014#32] ∧
    HostStmt.events (.mw 0x10 [1, 2]) = [.memWrite 0x10 1, .memWrite 0x11 2] := by decide

/-- V-Z-2: after a reset during a command STATUS and OUT_LEN are 0. -/
theorem test_reset_during_command :
    (after (step { convertState with events := [.resetAssert] })).status = 0#32 ∧
    (after (step { convertState with events := [.resetAssert] })).outLen = 0#32 := by decide

/-- The host's way to place a word: P4's illegal word 0x41 and an OK CONVERT from reset (V-E-1). -/
theorem test_fetch_word :
    (after (step (State.reset.withFetchWord 32 0x41))).status = 0x12#32 ∧
    (after (step (State.reset.withFetchWord 32 0x02))).status = 0x02#32 := by decide

/-! ### Each statement's hypotheses are met -/

theorem witness_DecodeMatchesOpcodeTable :
    0x00000031#32 &&& 0xFFFFFFCF#32 = BitVec.ofNat 32 Mnemonic.pack.opcode ∧
    (0x00000040#32).extractLsb' 6 26 ≠ 0#26 ∧
    (0x00000006#32).extractLsb' 6 26 = 0#26 ∧ 6 ≤ ((0x00000006#32).extractLsb' 0 4).toNat := by decide

theorem witness_StepRunsAcceptedCommand :
    redState.phase = .busy ∧ decode redState.cmd = .ok .nop ∧ redState.events = [] ∧
    ({ redState with events := [.engine] } : State).events = .engine :: [] ∧
    ({ redState with events := [.wait] } : State).events = .wait :: [] ∧
    decode (BitVec.ofNat 32 (0x12 % 2 ^ 32)) = .ok (.convert true) := by decide

/-- Both clauses, at the least values that make a word illegal. -/
theorem witness_IllegalWordCompletes :
    6 ≤ ((0x00000006#32).extractLsb' 0 4).toNat ∧ (0x00000040#32).extractLsb' 6 26 ≠ 0#26 ∧
    State.reset.resetLine = .ready ∧ State.reset.phase = .idle := by decide

theorem witness_CmdWriteIsAccepted :
    State.reset.resetLine = .ready ∧ State.reset.phase = .idle ∧
    ({ State.reset with events := [.regWrite 32 0x00 0x12] } : State).events = .regWrite 32 0x00 0x12 :: [] := by
  decide

/-- Both clauses, the second at both ends of the reserved offsets. -/
theorem witness_IgnoredWrites :
    redState.resetLine = .ready ∧ redState.phase = .busy ∧ 0x2C ∈ [0x00, 0x08, 0x0C, 0x10, 0x14, 0x18, 0x1C, 0x20, 0x2C] ∧
    0x30 ∈ [0x04, 0x24, 0x28, 0x30] ∧ (0x34 % 4 = 0 ∧ 0x34 ≤ 0x34 ∧ 0x34 < 0x100) ∧
    (0xFC % 4 = 0 ∧ 0x34 ≤ 0xFC ∧ 0xFC < 0x100) := by decide

theorem witness_OperandWriteWhileIdle :
    State.reset.resetLine = .ready ∧ State.reset.phase = .idle ∧
    ∀ o ∈ [0x08, 0x0C, 0x10, 0x14, 0x18, 0x1C, 0x20, 0x2C],
      ({ State.reset with events := [.regWrite 32 o 5] } : State).events = .regWrite 32 o 5 :: [] := by decide

theorem witness_RegisterReads :
    State.reset.resetLine = .ready ∧
    ∀ o ∈ [0x00, 0x04, 0x30, 0x34, 0xFC], o % 4 = 0 ∧ o < 0x100 ∧
      ({ State.reset with events := [.regRead 32 o] } : State).events = .regRead 32 o :: [] := by decide

/-- The four clauses, at the boundary offsets. -/
theorem witness_RefusedRegisterAccesses :
    ({ State.reset with resetLine := .settling } : State).resetLine ≠ .ready ∧ State.reset.resetLine = .ready ∧
    (16 : Nat) ≠ 32 ∧ 0x01 % 4 ≠ 0 ∧ (0x100 % 4 = 0 ∧ 0x100 ≤ 0x100) := by decide

theorem witness_MalformedCompletes :
    bpp (.convert false) = some 4 ∧ bpp (.extract false true) = some 2 ∧ bpp (.rleRow true) = some 2 ∧
    bpp (.rleGlobal false) = some 2 ∧
    (operands 3 2 0 11 64 0 0).srcStride.toNat < (operands 3 2 0 11 64 0 0).width.toNat * 4 ∧
    (operands 3 2 0 12 23 0 0).srcLen.toNat <
      (operands 3 2 0 12 23 0 0).srcStride.toNat * (operands 3 2 0 12 23 0 0).height.toNat := by decide

/-- V-E-9 and V-E-11. -/
theorem witness_RangeCompletes :
    StrideCovers 2 (operands 0 0 0xFFFFFFF0 0 0x11 0 0) ∧ LengthCovers (operands 0 0 0xFFFFFFF0 0 0x11 0 0) ∧
    StrideCovers 2 (operands 0 0 0 0 0 0xFFFFFFFF 2) ∧ LengthCovers (operands 0 0 0 0 0 0xFFFFFFFF 2) ∧
    2 ^ 32 < (operands 0 0 0xFFFFFFF0 0 0x11 0 0).srcBase.toNat + (operands 0 0 0xFFFFFFF0 0 0x11 0 0).srcLen.toNat ∧
    2 ^ 32 < (operands 0 0 0 0 0 0xFFFFFFFF 2).dstBase.toNat + (operands 0 0 0 0 0 0xFFFFFFFF 2).dstLen.toNat := by
  unfold StrideCovers LengthCovers; decide

/-- V-E-12. -/
theorem witness_OverlapCompletes :
    let r := operands 3 2 0x100 12 24 0x117 1
    StrideCovers 4 r ∧ LengthCovers r ∧ WindowsInRange r ∧ 0 < r.srcLen.toNat ∧ 0 < r.dstLen.toNat ∧
    r.srcBase.toNat < r.dstBase.toNat + r.dstLen.toNat ∧ r.dstBase.toNat < r.srcBase.toNat + r.srcLen.toNat := by
  unfold StrideCovers LengthCovers WindowsInRange; decide

/-- V-C-7's shape: the output of the red pixel needs 4 bytes and has 3. -/
theorem witness_OverflowCompletes :
    OperandsPass 4 (operands 1 1 0x100 4 4 0x200 3) ∧
    (busyState (operands 1 1 0x100 4 4 0x200 3) []).windowsOrdinary = true ∧
    (operands 1 1 0x100 4 4 0x200 3).dstLen.toNat <
      (outOf (.convert false) (operands 1 1 0x100 4 4 0x200 3) []).length := by
  unfold OperandsPass StrideCovers LengthCovers WindowsInRange WindowsApart; decide

/-- The last byte of either window is no memory, or is the last or the first byte of the register window. -/
theorem witness_NotMemoryWindowRefused :
    let s : State := { redState with platform := ⟨0xF0000000, [⟨0x103, 1⟩, ⟨0x203, 1⟩], true⟩ }
    let src : State := { redState with platform := ⟨0x004, [], true⟩ }
    let dst : State := { redState with platform := ⟨0x203, [], true⟩ }
    bpp (.convert true) = some 4 ∧ OperandsPass 4 s.latched ∧
    ⟨0x103, 1⟩ ∈ s.platform.notMemory ∧ Window.overlaps ⟨0x103, 1⟩ s.latched.srcWindow = true ∧
    ⟨0x203, 1⟩ ∈ s.platform.notMemory ∧ Window.overlaps ⟨0x203, 1⟩ s.latched.dstWindow = true ∧
    src.platform.regWindow.overlaps src.latched.srcWindow = true ∧
    dst.platform.regWindow.overlaps dst.latched.dstWindow = true := by
  unfold OperandsPass StrideCovers LengthCovers WindowsInRange WindowsApart; decide

/-- DST_LEN is exactly the output's length (V-C-3). -/
theorem witness_ConvertCompletes :
    OperandsPass 4 redState.latched ∧ redState.windowsOrdinary = true ∧
    destStride redState.latched.width.toNat * redState.latched.height.toNat = redState.latched.dstLen.toNat := by
  unfold OperandsPass StrideCovers LengthCovers WindowsInRange WindowsApart; decide

/-- DST_LEN is exactly the output's length (V-X-1). -/
theorem witness_ExtractCompletes :
    OperandsPass 2 extractState.latched ∧ extractState.windowsOrdinary = true ∧
    2 * extractState.latched.width.toNat * extractState.latched.height.toNat = extractState.latched.dstLen.toNat := by
  unfold OperandsPass StrideCovers LengthCovers WindowsInRange WindowsApart; decide

theorem witness_RleRowCompletes :
    OperandsPass 2 rleState.latched ∧ rleState.windowsOrdinary = true ∧
    (outRleRow false rleState.latched rleState.snap).length ≤ rleState.latched.dstLen.toNat := by
  unfold OperandsPass StrideCovers LengthCovers WindowsInRange WindowsApart; decide

theorem witness_RleGlobalCompletes :
    OperandsPass 2 rleState.latched ∧ rleState.windowsOrdinary = true ∧
    (outRleGlobal false rleState.latched rleState.snap).length ≤ rleState.latched.dstLen.toNat := by
  unfold OperandsPass StrideCovers LengthCovers WindowsInRange WindowsApart; decide

/-- The three clauses: an OK command, an error, and NOP. -/
theorem witness_OkWritesExactlyOutput :
    redState.mem.wf ∧
    isNext (exec (.convert false) redState) = true ∧ (after (exec (.convert false) redState)).err = .ok ∧
    bpp (.convert false) ≠ none ∧
    isNext (exec (.rleRow false) redState) = true ∧ (after (exec (.rleRow false) redState)).err ≠ .ok ∧
    isNext (exec .nop redState) = true ∧ bpp .nop = none := by decide

/-- Each premise of the frame is met by some command. -/
theorem witness_EngineFrame :
    isNext (exec (.convert false) redState) = true ∧ isNext (exec .pack redState) = true ∧ bpp .pack = none ∧
    usesAcc (.extract true false) = false ∧
    (after (exec (.extract false false) (busyState (operands 1 1 0 1 1 0 0) []))).err = .malformed := by decide

/-- Two states that differ outside the latches and the snapshot; CONVERT completes OK in the first. -/
theorem witness_ResultDependsOnLatchedAndSnap :
    let s₂ : State := { redState with outLen := 9, mem := [(5, 7)], regs := Regs.reset }
    redState.latched = s₂.latched ∧ redState.snap = s₂.snap ∧ redState.platform = s₂.platform ∧ s₂ ≠ redState ∧
    isNext (exec (.convert false) redState) = true ∧ (after (exec (.convert false) redState)).err = .ok ∧
    redState.mem.wf ∧ s₂.mem.wf := by decide

/-- The snapshots differ in the alpha byte only; the command goes on, and with a hole in the platform it is refused. -/
theorem witness_ReadsOnlyPixelBytes :
    let m : Memory := [(0x102, 0xFF)]
    let hole : State := { redState with platform := ⟨0xF0000000, [⟨0x103, 1⟩], true⟩ }
    bpp (.convert false) = some 4 ∧ m ≠ redState.snap ∧ isNext (exec (.convert false) redState) = true ∧
    isNext (exec (.convert false) hole) = false ∧
    (∀ x < redState.latched.width.toNat, ∀ y < redState.latched.height.toNat, ∀ j < 3,
      m.read (redState.latched.srcBase.toNat + y * redState.latched.srcStride.toNat + x * 4 + j) =
        redState.snap.read (redState.latched.srcBase.toNat + y * redState.latched.srcStride.toNat + x * 4 + j)) := by
  decide

/-- The last byte of the last pixel of IMG3x2 packed (V-E-12: it is 0x117). -/
theorem witness_PixelBytesInSourceWindow :
    let r := operands 3 2 0x100 12 24 0x200 64
    StrideCovers 4 r ∧ LengthCovers r ∧ 2 < r.width.toNat ∧ 1 < r.height.toNat ∧ 3 < 4 ∧
    r.srcBase.toNat + 1 * r.srcStride.toNat + 2 * 4 + 3 = 0x117 := by
  unfold StrideCovers LengthCovers; decide

theorem witness_DestStrideProperties : StrideCovers 4 redState.latched := by unfold StrideCovers; decide

/-- A pixel and a padding byte of the red image. -/
theorem witness_ConvertOutputPixels :
    0 < redState.latched.height.toNat ∧ 0 < redState.latched.width.toNat ∧
    2 * redState.latched.width.toNat ≤ 3 ∧ 3 < destStride redState.latched.width.toNat := by decide

theorem witness_ExtractKeepsOrSwapsBytes :
    2 < extractState.latched.width.toNat ∧ 1 < extractState.latched.height.toNat := by decide

/-- One value more than the cap gives two adjacent tokens of one value, the first full. -/
theorem runs_capped (v : Half) (n : Nat) (h : n + 1 = runMax) :
    runs (v :: (List.replicate n v ++ [v])) = [] ++ ⟨runMax, v⟩ :: ⟨1, v⟩ :: [] := by
  have hfull : stepRun ⟨true, v, runMax⟩ v = (⟨true, v, 1⟩, [⟨runMax, v⟩]) := by simp [stepRun]
  have hfirst : stepRun RleAcc.init v = (⟨true, v, 1⟩, []) := by simp [stepRun, RleAcc.init]
  have hmid : foldRuns ⟨true, v, 1⟩ (List.replicate n v) = (⟨true, v, runMax⟩, []) := by
    rw [foldRuns_replicate v 1 n (by omega), Nat.add_comm, h]
  unfold runs
  rw [foldRuns_cons, hfirst, foldRuns_append, hmid, foldRuns_cons, hfull]
  rfl

/-- V-F-5: 65536 equal values. -/
theorem witness_RunCapSplits :
    runs (7 :: (List.replicate 65534 7 ++ [7])) = [] ++ ⟨65535, 7⟩ :: ⟨1, 7⟩ :: [] :=
  runs_capped 7 65534 rfl

/-- The three clauses, and a buffer where W = 1. -/
theorem witness_RleRowEdgeCases :
    (operands 0 2 0 0 0 0 8).width.toNat = 0 ∧ (operands 3 0 0 6 0 0 4).height.toNat = 0 ∧
    (operands 1 1 0 4 4 0 10).width.toNat = 1 := by decide

/-- The 4x1 row of equal pixels. -/
theorem witness_RleRowSizeBounds :
    let r := operands 4 1 0 8 8 0x300 64
    1 ≤ r.width.toNat ∧ r.width.toNat ≤ 65535 ∧ ∀ x < r.width.toNat, pix false r [] x 0 = 0 := by decide

theorem witness_ZeroPixelsGiveNoTokens :
    (operands 0 2 0 0 0 0 0).width.toNat = 0 ∧ (operands 3 0 0 6 0 0 0).height.toNat = 0 ∧
    OperandsPass 2 (operands 0 2 0 0 0 0 0) ∧ OperandsPass 2 (operands 3 0 0 6 0 0 0) ∧
    (busyState (operands 3 0 0 6 0 0 0) []).windowsOrdinary = true := by
  unfold OperandsPass StrideCovers LengthCovers WindowsInRange WindowsApart; decide

/-- P1's chain: the registers that the host writes after the CONVERT. -/
theorem witness_ConvertThenReadGivesPixels :
    let t := after (exec (.convert false) convertState)
    let r := operands 3 2 0x200 8 16 0x300 12
    convertState.mem.wf ∧ isNext (exec (.convert false) convertState) = true ∧ t.err = .ok ∧
    r.width = convertState.latched.width ∧ r.height = convertState.latched.height ∧
    r.srcBase = convertState.latched.dstBase ∧ r.srcStride = t.dstStride ∧ r.srcLen = t.outLen := by decide

/-- A good state in which a command runs, and it steps. -/
theorem witness_StepKeepsInvariant : redState.Inv ∧ isNext (step redState) = true := by
  refine ⟨⟨by decide, by decide, by decide, by decide, fun _ => rfl, fun _ _ _ => rfl, by decide, by decide⟩, by decide⟩

/-- Both clauses: a CMD write that is accepted, and a completion. -/
theorem witness_PhaseChanges :
    let s : State := { State.reset with events := [.regWrite 32 0x00 0x12] }
    isNext (step s) = true ∧ s.phase = .idle ∧ (after (step s)).phase = .busy ∧
    isNext (step redState) = true ∧ redState.phase = .busy ∧ (after (step redState)).phase = .idle := by decide

/-- An operand write, a dropped write, and DROPPED cleared by an acceptance. -/
theorem witness_RegisterChangeRules :
    let s : State := { State.reset with events := [.regWrite 32 0x08 3] }
    let u : State := { redState with events := [.regWrite 32 0x08 3] }
    let v : State := { State.reset with dropped := true, events := [.regWrite 32 0x00 0] }
    isNext (step s) = true ∧ (after (step s)).regs ≠ s.regs ∧
    isNext (step u) = true ∧ u.dropped = false ∧ (after (step u)).dropped = true ∧
    isNext (step v) = true ∧ v.dropped = true ∧ (after (step v)).dropped = false := by decide

/-- Both clauses: an idle and a busy engine; the window of the busy one starts at the red image's destination. -/
theorem witness_ResetEffect :
    let s : State := { State.reset with events := [.resetAssert] }
    let u : State := { redState with events := [.resetAssert] }
    s.mem.wf ∧ s.events = .resetAssert :: [] ∧ s.phase = .idle ∧
    u.mem.wf ∧ u.events = .resetAssert :: [] ∧ u.phase = .busy ∧
    u.latched.dstWindow.contains 0x1FF = false ∧ 3 < u.latched.dstLen.toNat ∧
    u.latched.dstBase.toNat + 3 < 2 ^ 32 := by decide

theorem witness_ResetReleaseAccepts :
    let s : State := { State.reset with
      resetLine := .asserted
      events := [.resetRelease, .resetSettled, .regWrite 32 0x00 1] }
    s.phase = .idle ∧ s.resetLine = .asserted ∧
    s.events = .resetRelease :: .resetSettled :: .regWrite 32 0x00 1 :: [] := by decide

theorem witness_EmptyCommandsFromReset :
    bpp (.convert true) ≠ none ∧ bpp (.extract true true) ≠ none ∧ bpp (.rleGlobal true) ≠ none ∧
    bpp (.rleRow true) ≠ none := by decide

/-- The last address of each window of the red image. -/
theorem witness_HazardsFault :
    redState.phase = .busy ∧
    (0x203 < 2 ^ 32 ∧ redState.platform.regWindow.contains 0x203 = false ∧
      redState.platform.ordinary ⟨0x203, 1⟩ = true ∧ redState.latched.dstBase.toNat ≤ 0x203 ∧
      0x203 < redState.latched.dstBase.toNat + redState.latched.dstLen.toNat) ∧
    (redState.platform.regWindow.contains 0x103 = false ∧ redState.platform.ordinary ⟨0x103, 1⟩ = true ∧
      redState.latched.srcBase.toNat ≤ 0x103 ∧
      0x103 < redState.latched.srcBase.toNat + redState.latched.srcLen.toNat) := by decide

theorem witness_StatusReadEndsHazard :
    let s : State := { State.reset with unacked := [⟨0x200, 4⟩], events := [.regRead 32 0x04, .memRead 0x203] }
    s.phase = .idle ∧ s.resetLine = .ready ∧ s.platform.regWindow.contains 0x203 = false ∧
    s.platform.ordinary ⟨0x203, 1⟩ = true ∧ ⟨0x200, 4⟩ ∈ s.unacked ∧ Window.contains ⟨0x200, 4⟩ 0x203 = true ∧
    s.events = .regRead 32 0x04 :: .memRead 0x203 :: [] := by decide

/-- The first address above the source window while the command runs. -/
theorem witness_HostMemoryAccess :
    let s : State := { redState with events := [.memWrite 0x104 9] }
    s.platform.regWindow.contains 0x104 = false ∧ s.platform.ordinary ⟨0x104, 1⟩ = true ∧
    (∀ w ∈ s.unacked, w.contains 0x104 = false) ∧ s.phase = .busy ∧ s.latched.dstWindow.contains 0x104 = false ∧
    s.latched.srcWindow.contains 0x104 = false ∧ s.mem.wf ∧ s.events = .memWrite 0x104 9 :: [] := by decide

theorem witness_WaitTerminates :
    let s : State := { redState with events := [.wait] }
    s.phase = .busy ∧ s.resetLine = .ready ∧ s.windowsOrdinary = true ∧ s.events = .wait :: [] := by decide

theorem witness_EngineAloneRunsSafely :
    let s : State := { redState with events := [.engine, .wait] }
    s.resetLine = .ready ∧ s.windowsOrdinary = true ∧ ∀ e ∈ s.events, e = .engine ∨ e = .wait := by decide

theorem witness_DroppedWriteKeepsResult :
    let s : State := { redState with events := [.regWrite 32 0x20 99, .engine] }
    s.phase = .busy ∧ s.resetLine = .ready ∧ s.windowsOrdinary = true ∧
    0x20 ∈ [0x00, 0x08, 0x0C, 0x10, 0x14, 0x18, 0x1C, 0x20, 0x2C] ∧
    s.events = .regWrite 32 0x20 99 :: .engine :: [] := by decide

/-- The destination window is the first four bytes of the register window, which the engine does not see. -/
theorem witness_EngineReachesNoRegister :
    let s : State := { redState with platform := ⟨0x200, [], false⟩ }
    bpp (.convert true) = some 4 ∧ OperandsPass 4 s.latched ∧ s.platform.notMemory = [] ∧
    s.platform.engineSeesRegs = false ∧ s.mem.wf ∧ 0 < (outOf (.convert true) s.latched s.snap).length := by
  unfold OperandsPass StrideCovers LengthCovers WindowsInRange WindowsApart; decide

/-- U15 and R43: the red pixel converted into the register window (V-C-3's bytes). -/
theorem test_register_window_seen :
    exec (.convert true) { redState with platform := ⟨0x200, [], true⟩ } = .refused .windowNotMemory := by rfl

theorem test_register_window_not_seen :
    bytesAt (after (exec (.convert true) { redState with platform := ⟨0x200, [], false⟩ })).mem 0x200 4 =
      [0xF8, 0x00, 0x00, 0x00] := by decide

end Sys2Proof.Tests
end

section
/-! PROOFS. 00_scope.md: what a step answers to a host access, and the settled statements about register accesses outside
the interface (O12), pixel addresses (O31) and byte accesses to ordinary memory (O56). -/

namespace Sys2Proof.Machine

section

variable {s : State} {rest : List Event}

/-! ### A step whose oldest event is a host access -/

theorem step_of_regWrite {bits offset : Nat} {v : Word} (h : s.events = .regWrite bits offset v :: rest) :
    step s = hostRegWrite bits offset v { s with events := rest } :=
  step_of_other (by simp only [nextTurn, h])

theorem step_of_regRead {bits offset : Nat} (h : s.events = .regRead bits offset :: rest) :
    step s = hostRegRead bits offset { s with events := rest } :=
  step_of_other (by simp only [nextTurn, h])

theorem step_of_memWrite {a : Nat} {b : Byte} (h : s.events = .memWrite a b :: rest) :
    step s = hostMemWrite a b { s with events := rest } :=
  step_of_other (by simp only [nextTurn, h])

theorem step_of_memRead {a : Nat} (h : s.events = .memRead a :: rest) :
    step s = hostMemRead a { s with events := rest } :=
  step_of_other (by simp only [nextTurn, h])

/-! ### Register accesses outside the interface -/

/-- R166: no register access before the access delay after reset has passed. -/
theorem regAccess_of_not_ready (bits offset : Nat) (h : s.resetLine ≠ .ready) :
    regAccess s bits offset = some .accessDuringReset := if_pos h

/-- R25: only accesses of 32 bits. -/
theorem regAccess_of_width {bits : Nat} (offset : Nat) (hr : s.resetLine = .ready) (hb : bits ≠ 32) :
    regAccess s bits offset = some .registerWidth := by simp [regAccess, hr, hb]

/-- R25: only offsets that are multiples of 4. -/
theorem regAccess_of_unaligned {offset : Nat} (hr : s.resetLine = .ready) (ha : offset % 4 ≠ 0) :
    regAccess s 32 offset = some .registerAlignment := by simp [regAccess, hr, ha]

/-- R4: only offsets of the window. -/
theorem regAccess_of_beyond {offset : Nat} (hr : s.resetLine = .ready) (ha : offset % 4 = 0)
    (ho : Config.regWindowBytes ≤ offset) : regAccess s 32 offset = some .registerOffset := by
  simp [regAccess, hr, ha, ho]

/-- The events still to come do not matter to whether an access is inside the interface. -/
theorem regAccess_events (es : List Event) (bits offset : Nat) :
    regAccess { s with events := es } bits offset = regAccess s bits offset := rfl

theorem hostRegWrite_of_refusal {bits offset : Nat} {r : Refusal} (v : Word) (h : regAccess s bits offset = some r) :
    hostRegWrite bits offset v s = .refused r := by simp only [hostRegWrite, h]

theorem hostRegRead_of_refusal {bits offset : Nat} {r : Refusal} (h : regAccess s bits offset = some r) :
    hostRegRead bits offset s = .refused r := by simp only [hostRegRead, h]

/-- A register write or read outside the interface is refused under the name `regAccess` gives it. -/
theorem step_refused_of_regAccess {bits offset : Nat} {v : Word} {r : Refusal}
    (hev : s.events = .regWrite bits offset v :: rest ∨ s.events = .regRead bits offset :: rest)
    (hr : regAccess s bits offset = some r) : step s = .refused r := by
  rcases hev with hev | hev
  · rw [step_of_regWrite hev]
    exact hostRegWrite_of_refusal v ((regAccess_events rest bits offset).trans hr)
  · rw [step_of_regRead hev]
    exact hostRegRead_of_refusal ((regAccess_events rest bits offset).trans hr)

/-! ### Byte accesses to ordinary memory -/

theorem hostMemRead_of_access {a : Nat} (ha : memAccess s a = none) (hd : s.destHazard a = false) :
    hostMemRead a s = .next { s with replies := .byte (s.mem.read a) :: s.replies } := by
  simp [hostMemRead, ha, hd]

theorem hostMemWrite_of_access {a : Nat} (b : Byte) (ha : memAccess s a = none) (hd : s.destHazard a = false)
    (hs : s.sourceHazard a = false) : hostMemWrite a b s = .next { s with mem := s.mem.write a b } := by
  simp [hostMemWrite, ha, hd, hs]

/-- R158: no destination hazard is an address outside the running command's destination window and outside every window
not yet shown complete. -/
theorem destHazard_eq_false_iff (a : Nat) :
    s.destHazard a = false ↔
      (s.phase = .busy → s.latched.dstWindow.contains a = false) ∧ ∀ w ∈ s.unacked, w.contains a = false := by
  cases hp : s.phase <;> simp [State.destHazard, Phase.isBusy, hp]

/-- R159: no source hazard is an address outside the running command's source window. -/
theorem sourceHazard_eq_false_iff (a : Nat) :
    s.sourceHazard a = false ↔ (s.phase = .busy → s.latched.srcWindow.contains a = false) := by
  cases hp : s.phase <;> simp [State.sourceHazard, Phase.isBusy, hp]

end

/-! ### Pixel addresses -/

/-- R12, R82: a byte of a pixel lies below the end of the buffer's last row when the stride covers a row. -/
theorem pixel_offset_lt {b x y j width height stride : Nat} (hrow : width * b ≤ stride) (hx : x < width)
    (hy : y < height) (hj : j < b) : y * stride + x * b + j < stride * height := by
  have hcol : b * x + j < stride := (Nat.mul_add_lt_mul_of_lt_of_lt hx hj).trans_le hrow
  have hall : stride * y + (b * x + j) < height * stride := Nat.mul_add_lt_mul_of_lt_of_lt hy hcol
  calc y * stride + x * b + j = stride * y + (b * x + j) := by ring
    _ < height * stride := hall
    _ = stride * height := Nat.mul_comm ..

end Sys2Proof.Machine

namespace Sys2Proof.Proofs

open Sys2Proof.Machine

/-- Settles O31: a pixel byte's offset is below SRC_STRIDE * HEIGHT, which SRC_LEN covers. -/
theorem pixelBytesInSourceWindow : Obligations.PixelBytesInSourceWindow := by
  intro b x y j r hstride hlen hx hy hj
  have hoffset := (pixel_offset_lt hstride hx hy hj).trans_le hlen
  rw [Window.contains_iff]
  dsimp only [Regs.srcWindow]
  omega

/-- Settles O56: neither the address nor a hazard stops the access, and the write obeys the laws of memory. -/
theorem hostMemoryAccess : Obligations.HostMemoryAccess := by
  intro s a b rest haddr hreg hord hunacked hdst
  have hacc : memAccess s a = none := (memAccess_none_iff a).2 ⟨haddr, hreg, hord⟩
  have hdest : s.destHazard a = false := (destHazard_eq_false_iff a).2 ⟨hdst, hunacked⟩
  refine ⟨fun hev => ?_, fun hwf hsrc hev => ?_⟩
  · rw [step_of_memRead hev]
    exact hostMemRead_of_access hacc hdest
  · have hsource : s.sourceHazard a = false := (sourceHazard_eq_false_iff a).2 hsrc
    refine ⟨s.mem.write a b, ?_, Memory.read_write_self b hwf, fun c hc => Memory.read_write_other s.mem b hc.symm⟩
    rw [step_of_memWrite hev]
    exact hostMemWrite_of_access b hacc hdest hsource

/-- Settles O12: each clause's hypotheses select one answer of `regAccess`. -/
theorem refusedRegisterAccesses : Obligations.RefusedRegisterAccesses := by
  intro s bits offset v rest hev
  refine ⟨fun hline => ?_, fun hline hbits => ?_, fun hline hbits halign => ?_, fun hline hbits halign hoff => ?_⟩
  · exact step_refused_of_regAccess hev (regAccess_of_not_ready bits offset hline)
  · exact step_refused_of_regAccess hev (regAccess_of_width offset hline hbits)
  · subst hbits
    exact step_refused_of_regAccess hev (regAccess_of_unaligned hline halign)
  · subst hbits
    exact step_refused_of_regAccess hev (regAccess_of_beyond hline halign hoff)

end Sys2Proof.Proofs
end

section
/-! PROOFS. 10_state.md: what a register access does, what the completion of a command changes, what the other steps leave
alone, and the settled statements about registers (O8 to O11, O49, O50), the engine's frame (O28, O60), the phase (O48,
O57) and the invariant (O46, O47). -/

namespace Sys2Proof.Machine

/-! ### Register accesses inside the interface -/

section

variable {s : State} {rest : List Event}

/-- R23, R75: only a register's own offset names it. -/
theorem eq_offset_of_ofOffset {offset : Nat} {r : Reg} (h : Reg.ofOffset offset = some r) : offset = r.offset := by
  unfold Reg.ofOffset at h
  split at h <;> cases h <;> rfl

@[simp] theorem ofOffset_offset (r : Reg) : Reg.ofOffset r.offset = some r := by cases r <;> rfl

/-- R24: the offsets above the last register are reserved. -/
theorem ofOffset_reserved {offset : Nat} (h : 0x34 ≤ offset) : Reg.ofOffset offset = none := by
  refine Option.eq_none_iff_forall_ne_some.2 fun r hr => ?_
  have ho := eq_offset_of_ofOffset hr
  cases r <;> simp only [Reg.offset] at ho <;> omega

theorem regAccess_of_ready {offset : Nat} (hr : s.resetLine = .ready) (ho : regAccessWf 32 offset = true) :
    regAccess s 32 offset = none := (regAccess_none_iff 32 offset).2 ⟨hr, ho⟩

theorem Phase.ne_idle_of_busy {p : Phase} (h : p = .busy) : p ≠ .idle := by
  rw [h]
  decide

/-- R23: a write to an RO register or a reserved offset. -/
theorem writeOffset_of_not_writable {offset : Nat} (v : Word) (h : (Reg.ofOffset offset).any regWritable = false) :
    s.writeOffset offset v = s := by
  unfold State.writeOffset
  cases hr : Reg.ofOffset offset with
  | none => rfl
  | some r => rw [hr, Option.any_some] at h; simp [h]

/-- R78: a write to CMD or an RW register while BUSY = 1. -/
theorem writeOffset_of_busy {offset : Nat} (v : Word) (h : (Reg.ofOffset offset).any regWritable = true)
    (hb : s.phase = .busy) : s.writeOffset offset v = s.drop := by
  unfold State.writeOffset
  cases hr : Reg.ofOffset offset with
  | none => rw [hr] at h; cases h
  | some r => rw [hr, Option.any_some] at h; simp [h, hb]

/-- R78: no register write ends a command. -/
theorem writeOffset_phase_of_busy (offset : Nat) (v : Word) (hb : s.phase = .busy) :
    (s.writeOffset offset v).phase = .busy := by
  cases hw : (Reg.ofOffset offset).any regWritable with
  | false => rw [writeOffset_of_not_writable v hw, hb]
  | true => rw [writeOffset_of_busy v hw hb, State.drop_phase, hb]

/-- R77: a write to CMD while BUSY = 0. -/
theorem writeOffset_cmd (v : Word) (hi : s.phase = .idle) : s.writeOffset Reg.cmd.offset v = s.accept v := by
  simp [State.writeOffset, regWritable, hi, Phase.isBusy]

/-- R23: a write to an operand register while BUSY = 0. -/
theorem writeOffset_operand {r : Reg} (v : Word) (hw : regWritable r = true) (hc : r ≠ .cmd) (hi : s.phase = .idle) :
    s.writeOffset r.offset v = { s with regs := s.regs.set v r } := by
  simp [State.writeOffset, hw, hc, hi, Phase.isBusy]

/-- R77: only CMD's own offset starts a command. -/
theorem writeOffset_phase {offset : Nat} (v : Word) (h : offset ≠ Reg.cmd.offset) :
    (s.writeOffset offset v).phase = s.phase := by
  unfold State.writeOffset
  cases hr : Reg.ofOffset offset with
  | none => rfl
  | some r =>
    have hc : r ≠ .cmd := by rintro rfl; exact h (eq_offset_of_ofOffset hr)
    simp only [hc, if_false]
    split_ifs <;> rfl

/-- A register write in a ready engine. -/
theorem step_of_ready_write {offset : Nat} {v : Word} (hr : s.resetLine = .ready) (ho : regAccessWf 32 offset = true)
    (hev : s.events = .regWrite 32 offset v :: rest) :
    step s = .next (State.writeOffset { s with events := rest } offset v) :=
  (step_of_regWrite hev).trans (hostRegWrite_of_access v (regAccess_of_ready hr ho))

/-- A write to an operand register in an idle ready engine. -/
theorem step_of_operand_write {v : Word} (r : Reg) (hw : regWritable r = true) (hc : r ≠ .cmd)
    (hr : s.resetLine = .ready) (hi : s.phase = .idle) (hev : s.events = .regWrite 32 r.offset v :: rest) :
    step s = .next { s with regs := s.regs.set v r, events := rest } := by
  rw [step_of_ready_write hr (offset_wf r) hev, writeOffset_operand (s := { s with events := rest }) v hw hc hi]

/-- A STATUS read touches the hazard marks alone (R158, log 9). -/
theorem acknowledge_eq (offset : Nat) :
    s.acknowledge offset =
      { s with unacked := if offset = Reg.status.offset ∧ s.phase = .idle then [] else s.unacked } := by
  unfold State.acknowledge
  split_ifs <;> rfl

/-- A register read in a ready engine. -/
theorem hostRegRead_of_ready {offset : Nat} (hr : s.resetLine = .ready) (ho : regAccessWf 32 offset = true) :
    hostRegRead 32 offset s = .next
      { s with
        unacked := if offset = Reg.status.offset ∧ s.phase = .idle then [] else s.unacked
        replies := .reg (s.readOffset offset) :: s.replies } := by
  simp only [hostRegRead, regAccess_of_ready hr ho, acknowledge_eq]

theorem step_of_ready_read {offset : Nat} (hr : s.resetLine = .ready) (ho : regAccessWf 32 offset = true)
    (hev : s.events = .regRead 32 offset :: rest) :
    step s = .next
      { s with
        unacked := if offset = Reg.status.offset ∧ s.phase = .idle then [] else s.unacked
        events := rest
        replies := .reg (s.readOffset offset) :: s.replies } :=
  (step_of_regRead hev).trans (hostRegRead_of_ready (s := { s with events := rest }) hr ho)

theorem readOffset_offset (r : Reg) : s.readOffset r.offset = s.readReg r := by simp [State.readOffset]

/-- R42: PACK_OUT is read with 16 zero bits above it. -/
theorem readReg_packOut : s.readReg .packOut = 0#16 ++ s.packOut := by
  rw [State.readReg, BitVec.setWidth_eq_append (by decide)]
  rfl

/-- R24: a reserved offset reads 0. -/
theorem readOffset_of_none {offset : Nat} (h : Reg.ofOffset offset = none) : s.readOffset offset = 0 := by
  simp [State.readOffset, h]

end

/-! ### The fields of STATUS -/

/-- R27, R137: what each field of a STATUS word shows, checked on its 48 values. -/
theorem statusWord_fields (busy done : Bool) (err : ErrCode) (dropped : Bool) :
    let w := statusWord busy done err dropped
    w.getLsbD 0 = busy ∧ w.getLsbD 1 = done ∧ w.extractLsb' 2 2 = 0#2 ∧ w.extractLsb' 4 4 = err.code ∧
      w.getLsbD 8 = dropped ∧ w.extractLsb' 9 23 = 0#23 := by
  cases err <;> revert busy done dropped <;> decide

/-! ### The length of an output sequence -/

section

variable (r : Regs) (m : Memory)

theorem length_flatMap_of_const {α β : Type} (l : List α) {f : α → List β} {n : Nat}
    (h : ∀ x ∈ l, (f x).length = n) : (l.flatMap f).length = n * l.length := by
  rw [List.length_flatMap, List.map_congr_left h, List.map_const', List.sum_replicate, smul_eq_mul, Nat.mul_comm]

/-- R101: a destination row holds its pixels. -/
theorem pixels_le_destStride (w : Nat) : pixBytes * w ≤ destStride w := by
  unfold pixBytes destStride
  omega

theorem pixelBytes_length (be : Bool) (x y : Nat) : (pixelBytes be r m x y).length = pixBytes := word_length be _

theorem convertRow_length (be : Bool) (y : Nat) : (convertRow be r m y).length = destStride r.width.toNat := by
  have hpixels : ((List.range r.width.toNat).flatMap fun x => pixelBytes be r m x y).length =
      pixBytes * r.width.toNat := by
    rw [length_flatMap_of_const _ fun x _ => pixelBytes_length r m be x y, List.length_range]
  rw [convertRow, List.length_append, hpixels, List.length_replicate,
    Nat.add_sub_cancel' (pixels_le_destStride r.width.toNat)]

theorem outConvert_length (be : Bool) : (outConvert be r m).length = lenConvert r m := by
  rw [outConvert, length_flatMap_of_const _ fun y _ => convertRow_length r m be y, List.length_range, lenConvert]

theorem flat_length (be : Bool) : (flat be r m).length = r.width.toNat * r.height.toNat := by
  rw [flat, length_flatMap_of_const _ fun y _ => rowVals_length be r m y, List.length_range]

theorem outExtract_length (inBE outBE : Bool) : (outExtract inBE outBE r m).length = lenExtract r m := by
  rw [outExtract, length_flatMap_of_const _ fun v _ => word_length outBE v, flat_length, lenExtract, pixBytes,
    Nat.mul_assoc]

theorem tokens_length (ts : List Token) : (ts.flatMap tok).length = 4 * ts.length :=
  length_flatMap_of_const ts fun t _ => tok_length t

theorem rowStream_length (be : Bool) (y : Nat) :
    (rowStream be r m y).length = 4 * (rowTokens be r m y).length + 2 := by
  rw [rowStream, List.length_append, tokens_length, marker_length]

/-- R127: an empty row has no token. -/
theorem rowTokens_of_no_column (be : Bool) (y : Nat) (h : r.width.toNat = 0) : rowTokens be r m y = [] := by
  rw [rowTokens, rowVals, h]
  rfl

/-- R134: an image without columns has no token. -/
theorem globalTokens_of_no_column (be : Bool) (h : r.width.toNat = 0) : globalTokens be r m = [] := by
  have hflat : flat be r m = [] := List.eq_nil_of_length_eq_zero (by rw [flat_length, h, Nat.zero_mul])
  rw [globalTokens, hflat]
  rfl

theorem outRleRow_length (be : Bool) : (outRleRow be r m).length = lenRleRow be r m := by
  rw [outRleRow, List.length_append, header_length, lenRleRow]
  split_ifs with hw
  · have hrow : ∀ y ∈ List.range r.height.toNat, (rowStream be r m y).length = 2 := fun y _ => by
      rw [rowStream_length, rowTokens_of_no_column r m be y hw, List.length_nil]
    rw [length_flatMap_of_const _ hrow, List.length_range]
  · rw [List.length_flatMap, List.map_congr_left fun y _ => rowStream_length r m be y]

theorem outRleGlobal_length (be : Bool) : (outRleGlobal be r m).length = lenRleGlobal be r m := by
  rw [outRleGlobal, tokens_length, lenRleGlobal]
  split_ifs with hw
  · rw [globalTokens_of_no_column r m be hw, List.length_nil]
  · rfl

/-- The length of `outOf` by formula (log 18). -/
def lenOf : Instr → Regs → Memory → Nat
  | .nop, _, _ | .pack, _, _ => 0
  | .convert _, r, m => lenConvert r m
  | .extract _ _, r, m => lenExtract r m
  | .rleRow inBE, r, m => lenRleRow inBE r m
  | .rleGlobal inBE, r, m => lenRleGlobal inBE r m

/-- R79: the formula is the length of the output sequence. -/
theorem outOf_length (i : Instr) : (outOf i r m).length = lenOf i r m := by
  cases i with
  | nop | pack => rfl
  | convert be => exact outConvert_length r m be
  | extract inBE outBE => exact outExtract_length r m inBE outBE
  | rleRow be => exact outRleRow_length r m be
  | rleGlobal be => exact outRleGlobal_length r m be

end

/-! ### The accumulator a command leaves -/

/-- R44: a pending run keeps its range through a whole sequence. -/
theorem foldRuns_range (a : RleAcc) (vs : List Half) (h : 1 ≤ a.pendingRun ∧ a.pendingRun ≤ runMax) :
    1 ≤ (foldRuns a vs).1.pendingRun ∧ (foldRuns a vs).1.pendingRun ≤ runMax := by
  induction vs generalizing a with
  | nil => exact h
  | cons v vs ih => exact ih (stepRun a v).1 (stepRun_range a v h)

theorem init_range : 1 ≤ RleAcc.init.pendingRun ∧ RleAcc.init.pendingRun ≤ runMax := by decide

theorem accAfter_range (vs : List Half) : 1 ≤ (accAfter vs).pendingRun ∧ (accAfter vs).pendingRun ≤ runMax :=
  foldRuns_range RleAcc.init vs init_range

/-- The accumulator after a command's run (log 13): only the RLE commands touch it. -/
def accOf (i : Instr) (s : State) : RleAcc :=
  match i with
  | .rleRow inBE => accRleRow inBE s.latched s.snap
  | .rleGlobal inBE => accRleGlobal inBE s.latched s.snap
  | .nop | .pack | .convert _ | .extract _ _ => s.acc

theorem accOf_of_not_usesAcc {i : Instr} (s : State) (h : usesAcc i = false) : accOf i s = s.acc := by
  cases i with
  | nop | pack | convert _ | extract _ _ => rfl
  | rleRow _ | rleGlobal _ => cases h

theorem accOf_range (i : Instr) {s : State} (h : 1 ≤ s.acc.pendingRun ∧ s.acc.pendingRun ≤ runMax) :
    1 ≤ (accOf i s).pendingRun ∧ (accOf i s).pendingRun ≤ runMax := by
  cases i with
  | nop | pack | convert _ | extract _ _ => exact h
  | rleRow _ | rleGlobal _ =>
    dsimp only [accOf, accRleRow, accRleGlobal]
    split
    · exact init_range
    · split_ifs
      · exact init_range
      · exact accAfter_range _

/-! ### The completion of a command -/

/-- R80, R101: the value a command gives DST_STRIDE on OK and OVERFLOW. -/
def strideOf : Instr → Regs → Word → Word
  | .convert _ => convertStride
  | .nop | .pack | .extract _ _ | .rleRow _ | .rleGlobal _ => keepStride

theorem strideOf_of_not_convert {i : Instr} (h : ∀ inBE, i ≠ .convert inBE) : strideOf i = keepStride := by
  cases i with
  | convert be => exact absurd rfl (h be)
  | nop | pack | extract _ _ | rleRow _ | rleGlobal _ => rfl

/-- R82 to R85: the outcomes of the register checks. -/
theorem checkOperands_error {b : Nat} {r : Regs} {e : ErrCode} (h : checkOperands b r = some e) :
    e = .malformed ∨ e = .range ∨ e = .overlap := by
  unfold checkOperands at h
  split_ifs at h <;> cases h <;> simp

section

variable {i : Instr} {b : Nat} {s t : State}

/-- R87: the four memory commands are one run, by their length, output, stride and accumulator. -/
theorem exec_memory (hb : bpp i = some b) :
    exec i s = State.runMemory b (lenOf i) (outOf i) (strideOf i) { s with acc := accOf i s } := by
  cases i with
  | nop | pack => cases hb
  | convert _ | extract _ _ | rleRow _ | rleGlobal _ => cases hb; rfl

/-- Everything the run of an accepted command can do, when it answers a next state. -/
inductive ExecCase (i : Instr) (s t : State) : Prop where
  /-- NOP completed. -/
  | nop (instr : i = .nop) (eq : t = s.complete .ok)
  /-- PACK completed. -/
  | pack (instr : i = .pack) (eq : t = State.complete { s with packOut := packWord s.latched.packIn } .ok)
  /-- R82 to R85: a check of the registers failed. -/
  | failed (b : Nat) (e : ErrCode) (pixel : bpp i = some b) (check : checkOperands b s.latched = some e)
      (eq : t = State.raise { s with acc := accOf i s } e)
  /-- R86: the output does not fit. -/
  | overflow (b : Nat) (pixel : bpp i = some b) (pass : OperandsPass b s.latched)
      (long : s.latched.dstLen.toNat < lenOf i s.latched s.snap)
      (eq : t = State.complete
        { s with
          acc := accOf i s
          outLen := sat32 (lenOf i s.latched s.snap)
          dstStride := strideOf i s.latched s.dstStride } .overflow)
  /-- R53: the output was written. -/
  | written (b : Nat) (pixel : bpp i = some b) (pass : OperandsPass b s.latched)
      (fits : lenOf i s.latched s.snap ≤ s.latched.dstLen.toNat)
      (eq : t = State.complete
        { s with
          acc := accOf i s
          mem := s.mem.writeBytes s.latched.dstBase.toNat (outOf i s.latched s.snap)
          outLen := BitVec.ofNat 32 (lenOf i s.latched s.snap)
          dstStride := strideOf i s.latched s.dstStride } .ok)

/-- R53: an output of no byte need not be set apart. -/
theorem written_mem_eq (i : Instr) (r : Regs) (m n : Memory) (a : Nat) :
    (if lenOf i r m = 0 then n else n.writeBytes a (outOf i r m)) = n.writeBytes a (outOf i r m) := by
  split_ifs with hlen
  · rw [List.eq_nil_of_length_eq_zero ((outOf_length r m i).trans hlen), Memory.writeBytes_nil]
  · rfl

theorem exec_cases (h : exec i s = .next t) : ExecCase i s t := by
  cases hb : bpp i with
  | none =>
    cases i with
    | nop => exact .nop rfl (Host.Outcome.next.inj h).symm
    | pack => exact .pack rfl (Host.Outcome.next.inj h).symm
    | convert _ | extract _ _ | rleRow _ | rleGlobal _ => cases hb
  | some b =>
    rw [exec_memory hb] at h
    rcases runMemory_cases b _ _ _ h with ⟨e, hc, ht⟩ | ⟨hc, -, hn, ht⟩ | ⟨hc, -, hn, ht⟩
    · exact .failed b e hb hc ht
    · exact .overflow b hb ((checkOperands_none_iff b _).1 hc) hn ht
    · rw [written_mem_eq] at ht
      exact .written b hb ((checkOperands_none_iff b _).1 hc) hn ht

/-- What every completion leaves unchanged, and the phase and DONE it gives (R80). -/
structure CompletesFrom (s t : State) : Prop where
  regs : t.regs = s.regs
  cmd : t.cmd = s.cmd
  dropped : t.dropped = s.dropped
  latched : t.latched = s.latched
  snap : t.snap = s.snap
  resetLine : t.resetLine = s.resetLine
  platform : t.platform = s.platform
  draws : t.draws = s.draws
  events : t.events = s.events
  replies : t.replies = s.replies
  phase : t.phase = .idle
  done : t.done = true

theorem complete_completesFrom (s : State) (e : ErrCode) : CompletesFrom s (s.complete e) := by constructor <;> rfl

theorem exec_completesFrom (h : exec i s = .next t) : CompletesFrom s t := by
  cases exec_cases h <;> subst t <;> constructor <;> rfl

/-- R66: a decoded command never ends as ILLEGAL. -/
theorem exec_err_ne_illegal (h : exec i s = .next t) : t.err ≠ .illegal := by
  cases exec_cases h with
  | failed b e _ hc eq =>
    subst eq
    rcases checkOperands_error hc with rfl | rfl | rfl <;> simp
  | nop _ eq | pack _ eq | overflow _ _ _ _ eq | written _ _ _ _ eq => subst eq; simp

/-- R68: NOP and PACK have no output. -/
theorem exec_of_no_output (hb : bpp i = none) (h : exec i s = .next t) :
    t.err = .ok ∧ t.outLen = s.outLen ∧ t.dstStride = s.dstStride ∧ t.mem = s.mem := by
  cases exec_cases h with
  | nop _ eq | pack _ eq => subst eq; exact ⟨rfl, rfl, rfl, rfl⟩
  | failed _ _ hp _ _ | overflow _ hp _ _ _ | written _ hp _ _ _ => rw [hb] at hp; cases hp

/-- R39: only CONVERT gives DST_STRIDE a value. -/
theorem exec_dstStride_of_not_convert (hi : ∀ inBE, i ≠ .convert inBE) (h : exec i s = .next t) :
    t.dstStride = s.dstStride := by
  have hs := strideOf_of_not_convert hi
  cases exec_cases h with
  | nop _ eq | pack _ eq | failed _ _ _ _ eq => subst eq; rfl
  | overflow _ _ _ _ eq | written _ _ _ _ eq => subst eq; simp [hs, keepStride]

/-- R80: an error other than OVERFLOW leaves DST_STRIDE. -/
theorem exec_dstStride_of_error (hok : t.err ≠ .ok) (hover : t.err ≠ .overflow) (h : exec i s = .next t) :
    t.dstStride = s.dstStride := by
  cases exec_cases h with
  | nop _ eq | pack _ eq | failed _ _ _ _ eq => subst eq; rfl
  | overflow _ _ _ _ eq => subst eq; exact absurd rfl hover
  | written _ _ _ _ eq => subst eq; exact absurd rfl hok

/-- R42: only PACK gives PACK_OUT a value. -/
theorem exec_packOut (hi : i ≠ .pack) (h : exec i s = .next t) : t.packOut = s.packOut := by
  cases exec_cases h with
  | pack hp _ => exact absurd hp hi
  | nop _ eq | failed _ _ _ _ eq | overflow _ _ _ _ eq | written _ _ _ _ eq => subst eq; rfl

theorem exec_acc (h : exec i s = .next t) : t.acc = accOf i s := by
  cases exec_cases h with
  | nop hi eq | pack hi eq => subst hi eq; rfl
  | failed _ _ _ _ eq | overflow _ _ _ _ eq | written _ _ _ _ eq => subst eq; rfl

/-- R53: an OK memory command writes its output sequence at DST_BASE, below 2^32. -/
theorem exec_mem_of_ok (hb : bpp i = some b) (hok : t.err = .ok) (h : exec i s = .next t) :
    s.latched.dstBase.toNat + (outOf i s.latched s.snap).length ≤ Config.addrSpace ∧
      t.mem = s.mem.writeBytes s.latched.dstBase.toNat (outOf i s.latched s.snap) := by
  cases exec_cases h with
  | nop hi _ | pack hi _ => subst hi; cases hb
  | failed b e _ hc eq =>
    subst eq
    rcases checkOperands_error hc with rfl | rfl | rfl <;> cases hok
  | overflow _ _ _ _ eq => subst eq; cases hok
  | written _ _ pass fits eq =>
    subst eq
    obtain ⟨-, -, ⟨-, hdst⟩, -⟩ := pass
    refine ⟨?_, rfl⟩
    rw [outOf_length]
    exact (Nat.add_le_add_left fits _).trans hdst

/-- R11, R80: a command that ends with an error writes no byte. -/
theorem exec_mem_of_error (herr : t.err ≠ .ok) (h : exec i s = .next t) : t.mem = s.mem := by
  cases exec_cases h with
  | nop _ eq | pack _ eq | failed _ _ _ _ eq | overflow _ _ _ _ eq => subst eq; rfl
  | written _ _ _ _ eq => subst eq; exact absurd rfl herr

theorem exec_mem_wf (hm : s.mem.wf) (h : exec i s = .next t) : t.mem.wf := by
  cases hb : bpp i with
  | none =>
    obtain ⟨-, -, -, hmem⟩ := exec_of_no_output hb h
    rwa [hmem]
  | some b =>
    by_cases hok : t.err = .ok
    · obtain ⟨hend, hmem⟩ := exec_mem_of_ok hb hok h
      rw [hmem]
      exact Memory.writeBytes_wf hm hend
    · rwa [exec_mem_of_error hok h]

/-- R80: a memory command changes no register but STATUS, OUT_LEN and DST_STRIDE. -/
theorem exec_readReg (hb : bpp i = some b) (h : exec i s = .next t) {r : Reg} (hstatus : r ≠ .status)
    (hout : r ≠ .outLen) (hstride : r ≠ .dstStride) : t.readReg r = s.readReg r := by
  have hf := exec_completesFrom h
  have hp : t.packOut = s.packOut := exec_packOut (by rintro rfl; cases hb) h
  cases r with
  | status => exact absurd rfl hstatus
  | outLen => exact absurd rfl hout
  | dstStride => exact absurd rfl hstride
  | cmd | width | height | srcBase | srcStride | srcLen | dstBase | dstLen | packIn | packOut =>
    simp [State.readReg, hf.cmd, hf.regs, hp]

/-- Where the windows are ordinary memory, no command is refused. -/
theorem exec_of_ordinary (i : Instr) (ho : s.windowsOrdinary = true) : ∃ t, exec i s = .next t := by
  cases hb : bpp i with
  | none =>
    cases i with
    | nop | pack => exact ⟨_, rfl⟩
    | convert _ | extract _ _ | rleRow _ | rleGlobal _ => cases hb
  | some b =>
    rw [exec_memory hb]
    cases hc : checkOperands b s.latched with
    | some e => exact ⟨_, runMemory_of_check (s := { s with acc := accOf i s }) b _ _ _ hc⟩
    | none =>
      rcases Nat.lt_or_ge s.latched.dstLen.toNat (lenOf i s.latched s.snap) with hn | hn
      · exact ⟨_, runMemory_of_overflow (s := { s with acc := accOf i s }) b _ _ _ hc ho hn⟩
      · exact ⟨_, runMemory_of_fits (s := { s with acc := accOf i s }) b _ _ _ hc ho hn⟩

end

/-! ### The step by its oldest event -/

section

variable {s t : State} {rest : List Event}

theorem step_of_resetAssert (hev : s.events = .resetAssert :: rest) :
    step s = .next (State.assertReset { s with events := rest }) := step_of_other (by simp only [nextTurn, hev])

theorem step_of_resetRelease (hev : s.events = .resetRelease :: rest) :
    step s = .next (State.releaseReset { s with events := rest }) := step_of_other (by simp only [nextTurn, hev])

theorem step_of_resetSettled (hev : s.events = .resetSettled :: rest) :
    step s = .next (State.settleReset { s with events := rest }) := step_of_other (by simp only [nextTurn, hev])

theorem nextTurn_of_nil (hev : s.events = []) : nextTurn s = engineTurn s := by simp only [nextTurn, hev]

theorem nextTurn_of_wait_busy (hev : s.events = .wait :: rest) (hb : s.phase = .busy) :
    nextTurn s = engineTurn s := by simp only [nextTurn, hev, waitTurn, hb]

/-- R73: the poll that ends a WAIT is a STATUS read. -/
theorem step_of_wait_idle (hev : s.events = .wait :: rest) (hi : s.phase = .idle) :
    step s = hostRegRead 32 Reg.status.offset { s with events := rest } :=
  step_of_other (by simp only [nextTurn, hev, waitTurn, hi, hostWaitDone])

/-- R73, R158: the end of a WAIT in a ready engine, which ends the hazards. -/
theorem step_of_ready_wait_idle (hr : s.resetLine = .ready) (hev : s.events = .wait :: rest) (hi : s.phase = .idle) :
    step s = .next { s with unacked := [], events := rest, replies := .reg s.status :: s.replies } := by
  have hread := hostRegRead_of_ready (s := { s with events := rest }) hr (offset_wf .status)
  rw [if_pos ⟨rfl, hi⟩, readOffset_offset] at hread
  exact (step_of_wait_idle hev hi).trans hread

/-- R164: on its turn a busy engine with ordinary windows completes the command, an illegal word included. -/
theorem step_completesFrom (hn : nextTurn s = engineTurn s) (hb : s.phase = .busy) (ho : s.windowsOrdinary = true) :
    ∃ t, step s = .next t ∧ CompletesFrom s t := by
  rcases engineTurn_cases s with ⟨hi, -⟩ | ⟨-, i, -, he⟩ | ⟨-, e, -, he⟩
  · rw [hi] at hb; cases hb
  · obtain ⟨t, ht⟩ := exec_of_ordinary i ho
    exact ⟨t, (step_of_run (hn.trans he)).trans ht, exec_completesFrom ht⟩
  · exact ⟨_, step_of_other (hn.trans he), complete_completesFrom s .illegal⟩

/-- A step that leaves the operand registers, DROPPED and the platform alone, and BUSY too unless it completes a
command. -/
structure QuietStep (s t : State) : Prop where
  regs : t.regs = s.regs
  dropped : t.dropped = s.dropped
  platform : t.platform = s.platform
  phase : t.phase = s.phase ∨ (t.phase = .idle ∧ t.done = true)

theorem CompletesFrom.quietStep {es : List Event} (h : CompletesFrom { s with events := es } t) : QuietStep s t :=
  ⟨h.regs, h.dropped, h.platform, .inr ⟨h.phase, h.done⟩⟩

theorem engineTurn_quietStep {es : List Event} (hn : nextTurn s = engineTurn { s with events := es })
    (h : step s = .next t) : QuietStep s t := by
  rcases engineTurn_cases { s with events := es } with ⟨-, he⟩ | ⟨-, i, -, he⟩ | ⟨-, e, -, he⟩
  · rw [step_of_other (hn.trans he)] at h
    cases h
    exact ⟨rfl, rfl, rfl, .inl rfl⟩
  · rw [step_of_run (hn.trans he)] at h
    exact (exec_completesFrom h).quietStep
  · rw [step_of_other (hn.trans he)] at h
    cases h
    exact (complete_completesFrom { s with events := es } .illegal).quietStep

theorem hostRegRead_quietStep {bits offset : Nat} (h : hostRegRead bits offset { s with events := rest } = .next t) :
    QuietStep s t := by
  obtain ⟨-, rfl⟩ := hostRegRead_next h
  rw [acknowledge_eq]
  exact ⟨rfl, rfl, rfl, .inl rfl⟩

/-- Every step is a register write, an assertion of reset, or quiet. -/
theorem step_write_or_reset_or_quiet (h : step s = .next t) :
    (∃ offset v rest, s.events = .regWrite 32 offset v :: rest ∧
      t = State.writeOffset { s with events := rest } offset v) ∨
    (∃ rest, s.events = .resetAssert :: rest ∧ t = State.assertReset { s with events := rest }) ∨
    QuietStep s t := by
  cases hev : s.events with
  | nil => exact .inr (.inr (engineTurn_quietStep (es := s.events) (nextTurn_of_nil hev) h))
  | cons e rest =>
    cases e with
    | regWrite bits offset v =>
      rw [step_of_regWrite hev] at h
      obtain ⟨hacc, rfl⟩ := hostRegWrite_next h
      obtain ⟨-, hwf⟩ := (regAccess_none_iff bits offset).1 hacc
      simp only [regAccessWf, Bool.and_eq_true, decide_eq_true_eq] at hwf
      obtain ⟨⟨rfl, -⟩, -⟩ := hwf
      exact .inl ⟨offset, v, rest, rfl, rfl⟩
    | resetAssert =>
      cases (step_of_resetAssert hev).symm.trans h
      exact .inr (.inl ⟨rest, rfl, rfl⟩)
    | regRead bits offset =>
      rw [step_of_regRead hev] at h
      exact .inr (.inr (hostRegRead_quietStep h))
    | memWrite addr b =>
      rw [step_of_memWrite hev] at h
      obtain ⟨-, -, -, rfl⟩ := hostMemWrite_next h
      exact .inr (.inr ⟨rfl, rfl, rfl, .inl rfl⟩)
    | memRead addr =>
      rw [step_of_memRead hev] at h
      obtain ⟨-, -, rfl⟩ := hostMemRead_next h
      exact .inr (.inr ⟨rfl, rfl, rfl, .inl rfl⟩)
    | engine => exact .inr (.inr (engineTurn_quietStep (es := rest) (by simp only [nextTurn, hev]) h))
    | wait =>
      cases hp : s.phase with
      | busy => exact .inr (.inr (engineTurn_quietStep (nextTurn_of_wait_busy hev hp) h))
      | idle =>
        rw [step_of_wait_idle hev hp] at h
        exact .inr (.inr (hostRegRead_quietStep h))
    | resetRelease =>
      cases (step_of_resetRelease hev).symm.trans h
      exact .inr (.inr ⟨rfl, rfl, rfl, .inl rfl⟩)
    | resetSettled =>
      cases (step_of_resetSettled hev).symm.trans h
      exact .inr (.inr ⟨rfl, rfl, rfl, .inl rfl⟩)

end

/-! ### The invariant, operation by operation -/

section

variable {s t : State}

theorem Regs.dstWindow_base_le (r : Regs) : r.dstWindow.base ≤ Config.addrSpace := r.dstBase.isLt.le

/-- The hazard marks, the events and the replies are not in the invariant. -/
theorem State.Inv.of_marks (h : s.Inv) (ws : List Window) (es : List Event) (rs : List Reply) :
    State.Inv { s with unacked := ws, events := es, replies := rs } :=
  ⟨h.mem_wf, h.snap_wf, h.acc_run, h.busy_status, h.busy_latched, h.busy_snap, h.reset_regs, h.fresh⟩

/-- R153: a command runs only in a ready engine, so its completion leaves a ready one with DONE = 1. -/
theorem State.Inv.of_completesFrom (h : s.Inv) (hb : s.phase = .busy) (hc : CompletesFrom s t) (hm : t.mem.wf)
    (ha : 1 ≤ t.acc.pendingRun ∧ t.acc.pendingRun ≤ runMax) : t.Inv where
  mem_wf := hm
  snap_wf := hc.snap ▸ h.snap_wf
  acc_run := ha
  busy_status hbusy := by rw [hc.phase] at hbusy; cases hbusy
  busy_latched hbusy := by rw [hc.phase] at hbusy; cases hbusy
  busy_snap hbusy := by rw [hc.phase] at hbusy; cases hbusy
  reset_regs hline := by
    obtain ⟨-, -, hready⟩ := h.busy_status hb
    exact absurd (hc.resetLine.trans hready) hline
  fresh _ hdone := by rw [hc.done] at hdone; cases hdone

theorem State.Inv.exec {i : Instr} (h : s.Inv) (hb : s.phase = .busy) (hx : exec i s = .next t) : t.Inv :=
  h.of_completesFrom hb (exec_completesFrom hx) (exec_mem_wf h.mem_wf hx) (exec_acc hx ▸ accOf_range i h.acc_run)

theorem State.Inv.accept (h : s.Inv) (w : Word) (hready : s.resetLine = .ready) : (s.accept w).Inv where
  mem_wf := h.mem_wf
  snap_wf := h.mem_wf
  acc_run := h.acc_run
  busy_status _ := ⟨rfl, rfl, hready⟩
  busy_latched _ := rfl
  busy_snap _ _ _ := rfl
  reset_regs hline := absurd hready hline
  fresh hidle := by cases hidle

theorem State.Inv.drop (h : s.Inv) (hb : s.phase = .busy) (hready : s.resetLine = .ready) : s.drop.Inv where
  mem_wf := h.mem_wf
  snap_wf := h.snap_wf
  acc_run := h.acc_run
  busy_status := h.busy_status
  busy_latched := h.busy_latched
  busy_snap := h.busy_snap
  reset_regs hline := absurd hready hline
  fresh hidle := by rw [State.drop_phase, hb] at hidle; cases hidle

theorem State.Inv.setRegs (h : s.Inv) (r : Regs) (hi : s.phase = .idle) (hready : s.resetLine = .ready) :
    State.Inv { s with regs := r } where
  mem_wf := h.mem_wf
  snap_wf := h.snap_wf
  acc_run := h.acc_run
  busy_status := h.busy_status
  busy_latched hbusy := by rw [show s.phase = .busy from hbusy] at hi; cases hi
  busy_snap := h.busy_snap
  reset_regs hline := absurd hready hline
  fresh := h.fresh

theorem State.Inv.writeOffset (h : s.Inv) (offset : Nat) (v : Word) (hready : s.resetLine = .ready) :
    (s.writeOffset offset v).Inv := by
  rcases writeOffset_cases (s := s) offset v with he | ⟨hb, he⟩ | ⟨-, he⟩ | ⟨hi, r, he⟩ <;> rw [he]
  · exact h
  · exact h.drop hb hready
  · exact h.accept v hready
  · exact h.setRegs (s.regs.set v r) hi hready

/-- R159: a host write outside the source window keeps the snapshot in step with memory there. -/
theorem State.Inv.memWrite (h : s.Inv) {addr : Nat} (b : Byte) (haddr : addr < Config.addrSpace)
    (hsource : s.sourceHazard addr = false) : State.Inv { s with mem := s.mem.write addr b } where
  mem_wf := Memory.write_wf b h.mem_wf haddr
  snap_wf := h.snap_wf
  acc_run := h.acc_run
  busy_status := h.busy_status
  busy_latched := h.busy_latched
  busy_snap hb a ha := by
    have hne : addr ≠ a := by
      rintro rfl
      rw [(sourceHazard_eq_false_iff addr).1 hsource hb] at ha
      cases ha
    exact (h.busy_snap hb a ha).trans (Memory.read_write_other s.mem b hne).symm
  reset_regs := h.reset_regs
  fresh := h.fresh

theorem State.Inv.assertReset (h : s.Inv) : s.assertReset.Inv where
  mem_wf := by
    rw [State.assertReset_mem]
    split_ifs
    · exact Memory.scramble_wf _ h.mem_wf (Regs.dstWindow_base_le s.latched)
    · exact h.mem_wf
  snap_wf := Memory.wf_nil
  acc_run := init_range
  busy_status hbusy := by cases hbusy
  busy_latched hbusy := by cases hbusy
  busy_snap hbusy := by cases hbusy
  reset_regs _ := ⟨rfl, rfl, rfl, rfl, rfl, rfl, rfl, rfl, rfl⟩
  fresh _ _ := ⟨rfl, rfl, rfl, rfl, rfl, rfl⟩

/-- The reset line may leave a stage other than ready, and reaches no other stage from ready. -/
theorem State.Inv.setResetLine (h : s.Inv) {l : ResetLine} (hl : s.resetLine = .ready → l = .ready) :
    State.Inv { s with resetLine := l } where
  mem_wf := h.mem_wf
  snap_wf := h.snap_wf
  acc_run := h.acc_run
  busy_status hb := by
    obtain ⟨hdone, herr, hready⟩ := h.busy_status hb
    exact ⟨hdone, herr, hl hready⟩
  busy_latched := h.busy_latched
  busy_snap := h.busy_snap
  reset_regs hline := h.reset_regs (mt hl hline)
  fresh := h.fresh

theorem State.Inv.releaseReset (h : s.Inv) : s.releaseReset.Inv :=
  h.setResetLine fun hready => by simp [hready]

theorem State.Inv.settleReset (h : s.Inv) : s.settleReset.Inv :=
  h.setResetLine fun hready => by simp [hready]

theorem State.Inv.step (h : s.Inv) (hstep : step s = .next t) : t.Inv := by
  have hevents (es : List Event) : State.Inv { s with events := es } := h.of_marks s.unacked es s.replies
  cases step_cases hstep with
  | command es i hb _ run => exact (hevents es).exec hb run
  | illegal es _ hb _ eq =>
    subst eq
    exact (hevents es).of_completesFrom hb (complete_completesFrom _ .illegal) h.mem_wf h.acc_run
  | idle es _ eq => exact eq ▸ hevents es
  | regWrite es bits offset v access eq =>
    obtain ⟨hready, -⟩ := (regAccess_none_iff bits offset).1 access
    exact eq ▸ (hevents es).writeOffset offset v hready
  | regRead es bits offset _ eq =>
    rw [eq, acknowledge_eq]
    exact h.of_marks _ _ _
  | memWrite es addr b access _ source eq =>
    obtain ⟨haddr, -, -⟩ := (memAccess_none_iff addr).1 access
    exact eq ▸ (hevents es).memWrite b haddr source
  | memRead es addr _ _ eq => exact eq ▸ h.of_marks s.unacked es _
  | resetAssert es eq => exact eq ▸ (hevents es).assertReset
  | resetRelease es eq => exact eq ▸ (hevents es).releaseReset
  | resetSettled es eq => exact eq ▸ (hevents es).settleReset

end

end Sys2Proof.Machine

namespace Sys2Proof.Proofs

open Sys2Proof.Machine

/-- Settles O47, operation by operation along the cases of a step. -/
theorem stepKeepsInvariant : Obligations.StepKeepsInvariant := fun _ _ h hstep => h.step hstep

/-- Settles O28, from the cases of a command's run. -/
theorem engineFrame : Obligations.EngineFrame := by
  intro i s t h
  have hf := exec_completesFrom h
  refine ⟨⟨hf.regs, hf.cmd, hf.dropped, hf.latched, hf.snap, hf.resetLine, hf.platform, hf.draws, hf.events, hf.replies⟩,
    ⟨hf.phase, hf.done, exec_err_ne_illegal h⟩, fun hb => exec_of_no_output hb h,
    fun hi => exec_dstStride_of_not_convert hi h, fun hok hover => exec_dstStride_of_error hok hover h,
    fun hi => exec_packOut hi h, fun hacc => (exec_acc h).trans (accOf_of_not_usesAcc s hacc)⟩

/-- Settles O48: a register write starts a command at CMD's offset only, and of the other steps only reset and a
completion touch BUSY. -/
theorem phaseChanges : Obligations.PhaseChanges := by
  intro s t h
  rcases step_write_or_reset_or_quiet h with ⟨offset, v, rest, hev, rfl⟩ | ⟨rest, -, rfl⟩ | hq
  · let s' : State := { s with events := rest }
    refine ⟨fun hidle hbusy => ?_, fun hbusy hidle => ?_⟩
    · have hcmd : offset = Reg.cmd.offset := by
        by_contra hne
        exact Phase.ne_idle_of_busy hbusy ((writeOffset_phase (s := s') v hne).trans hidle)
      subst hcmd
      rw [writeOffset_cmd (s := s') v hidle]
      exact ⟨v, rest, hev, rfl, rfl, rfl⟩
    · exact absurd hidle (Phase.ne_idle_of_busy (writeOffset_phase_of_busy (s := s') offset v hbusy))
  · exact ⟨fun _ hbusy => absurd rfl (Phase.ne_idle_of_busy hbusy), fun _ _ => .inr rfl⟩
  · rcases hq.phase with hphase | ⟨hidle, hdone⟩
    · rw [hphase]
      exact ⟨fun hidle hbusy => absurd hidle (Phase.ne_idle_of_busy hbusy),
        fun hbusy hidle => absurd hidle (Phase.ne_idle_of_busy hbusy)⟩
    · exact ⟨fun _ hbusy => absurd hidle (Phase.ne_idle_of_busy hbusy), fun _ _ => .inl hdone⟩

/-- Settles O49: a register write by its cases, an assertion of reset, and every other step, which is quiet. -/
theorem registerChangeRules : Obligations.RegisterChangeRules := by
  intro s t h
  have hfalse {d : Bool} {p : Prop} (h0 : d = false) (h1 : d = true) : p := absurd h1 (Bool.eq_false_iff.1 h0)
  rcases step_write_or_reset_or_quiet h with ⟨offset, v, rest, hev, rfl⟩ | ⟨rest, hev, rfl⟩ | hq
  · rcases writeOffset_cases (s := { s with events := rest }) offset v with he | ⟨hb, he⟩ | ⟨hi, he⟩ | ⟨hi, r, he⟩ <;>
      rw [he]
    · exact ⟨fun hne => absurd rfl hne, fun h0 h1 => hfalse h0 h1, fun h1 h0 => hfalse h0 h1, rfl⟩
    · exact ⟨fun hne => absurd rfl hne, fun _ _ => ⟨hb, offset, v, rest, hev⟩, fun _ h0 => hfalse h0 rfl, rfl⟩
    · exact ⟨fun hne => absurd rfl hne, fun _ h1 => hfalse rfl h1, fun _ _ => .inl ⟨hi, rfl⟩, rfl⟩
    · exact ⟨fun _ => .inl ⟨hi, offset, v, rest, hev⟩, fun h0 h1 => hfalse h0 h1, fun h1 h0 => hfalse h0 h1, rfl⟩
  · exact ⟨fun _ => .inr ⟨rest, hev⟩, fun _ h1 => hfalse rfl h1, fun _ _ => .inr ⟨rest, hev⟩, rfl⟩
  · rw [hq.regs, hq.dropped, hq.platform]
    exact ⟨fun hne => absurd rfl hne, fun h0 h1 => hfalse h0 h1, fun h1 h0 => hfalse h0 h1, rfl⟩

/-- Settles O11: the fields of a STATUS word. -/
theorem statusFields : Obligations.StatusFields := by
  intro s
  obtain ⟨hbusy, hdone, hlow, herr, hdropped, hhigh⟩ := statusWord_fields s.phase.isBusy s.done s.err s.dropped
  refine ⟨hbusy.trans ?_, hdone, hlow, herr.trans ?_, hdropped, hhigh⟩
  · cases s.phase <;> rfl
  · cases s.err <;> rfl

/-- Settles O57: the engine's completion, then the STATUS read that ends the wait. -/
theorem waitTerminates : Obligations.WaitTerminates := by
  intro s rest hbusy hready ho hev
  obtain ⟨t, hst, hc⟩ := step_completesFrom (nextTurn_of_wait_busy hev hbusy) hbusy ho
  have hread := step_of_ready_wait_idle (hc.resetLine.trans hready) (hc.events.trans hev) hc.phase
  obtain ⟨hbit0, hbit1, -⟩ := statusFields t
  refine ⟨t, _, hst, hread, hc.phase, hc.done, rfl, ?_, hbit0.trans ?_, hbit1.trans hc.done⟩
  · rw [hc.replies]
    rfl
  · rw [hc.phase]
    rfl

/-- Settles O60: with memory everywhere no window is refused, and the output fits below 2^32. -/
theorem engineReachesNoRegister : Obligations.EngineReachesNoRegister := by
  intro i b s hb _ hmem hregs
  obtain ⟨t, ht⟩ := exec_of_ordinary i (windowsOrdinary_of_memory_everywhere hmem hregs)
  refine ⟨t, ht, fun r hstatus hout hstride => exec_readReg hb ht hstatus hout hstride, fun hwf hok k hk => ?_⟩
  obtain ⟨hend, hwritten⟩ := exec_mem_of_ok hb hok ht
  rw [hwritten]
  exact Memory.read_writeBytes_inside hwf hend k hk

/-- Settles O8: by whether the offset names a register that takes writes. -/
theorem ignoredWrites : Obligations.IgnoredWrites := by
  refine ⟨fun s offset v rest hready hbusy hev hoff => ?_, fun s offset v rest hready hev hoff => ?_⟩
  · obtain ⟨hwf, hwritable⟩ : regAccessWf 32 offset = true ∧ (Reg.ofOffset offset).any regWritable = true := by
      clear hev
      revert offset
      decide
    rw [step_of_ready_write hready hwf hev, writeOffset_of_busy (s := { s with events := rest }) v hwritable hbusy]
    rfl
  · obtain ⟨hwf, hignored⟩ : regAccessWf 32 offset = true ∧ (Reg.ofOffset offset).any regWritable = false := by
      rcases hoff with hro | ⟨halign, hlow, hhigh⟩
      · clear hev
        revert offset
        decide
      · rw [ofOffset_reserved hlow]
        simp [regAccessWf, halign, hhigh]
    rw [step_of_ready_write hready hwf hev, writeOffset_of_not_writable v hignored]

/-- Settles O9: one lemma for the eight operand registers. -/
theorem operandWriteWhileIdle : Obligations.OperandWriteWhileIdle := by
  intro s v rest hready hidle
  exact ⟨step_of_operand_write .width rfl nofun hready hidle, step_of_operand_write .height rfl nofun hready hidle,
    step_of_operand_write .srcBase rfl nofun hready hidle, step_of_operand_write .srcStride rfl nofun hready hidle,
    step_of_operand_write .srcLen rfl nofun hready hidle, step_of_operand_write .dstBase rfl nofun hready hidle,
    step_of_operand_write .dstLen rfl nofun hready hidle, step_of_operand_write .packIn rfl nofun hready hidle⟩

/-- Settles O10: an offset is a register's own, or reserved and reads 0. -/
theorem registerReads : Obligations.RegisterReads := by
  intro s offset rest hready halign hlt hev
  have hwf : regAccessWf 32 offset = true := by simp [regAccessWf, halign, hlt]
  rw [step_of_ready_read hready hwf hev]
  cases hr : Reg.ofOffset offset with
  | some r =>
    obtain rfl := eq_offset_of_ofOffset hr
    rw [readOffset_offset]
    cases r with
    | packOut => rw [readReg_packOut]; rfl
    | cmd | status | width | height | srcBase | srcStride | srcLen | dstBase | dstLen | dstStride | outLen | packIn => rfl
  | none =>
    rw [readOffset_of_none hr]
    congr 3
    split
    on_goal 14 => rfl
    all_goals cases hr

/-- Settles O46: every clause is about an idle ready engine at its reset values. -/
theorem resetMeetsInvariant : Obligations.ResetMeetsInvariant where
  mem_wf := Memory.wf_nil
  snap_wf := Memory.wf_nil
  acc_run := init_range
  busy_status hbusy := nomatch hbusy
  busy_latched hbusy := nomatch hbusy
  busy_snap hbusy := nomatch hbusy
  reset_regs hline := absurd rfl hline
  fresh _ _ := ⟨rfl, rfl, rfl, rfl, rfl, rfl⟩

/-- Settles O50, register by register. -/
theorem resetStateReadsZero : Obligations.ResetStateReadsZero := by
  refine ⟨fun r => ?_, rfl, rfl⟩
  cases r <;> rfl

end Sys2Proof.Proofs
end

section
/-! PROOFS. 20_memory.md: whose turn a step is, the STATUS read that ends a hazard, the fate of a memory command by its
windows, where CONVERT puts each byte, which bytes of the snapshot a command reads, and the settled statements about
them (O5, O20, O22, O27, O30, O34, O55). -/

namespace Sys2Proof.Machine

section

variable {s t : State} {i : Instr} {rest : List Event}

/-! ### The engine's turn -/

theorem engineTurn_of_busy (hb : s.phase = .busy) (hd : decode s.cmd = .ok i) : engineTurn s = .run i s := by
  simp only [engineTurn, hb, hd]

theorem nextTurn_of_engine (hev : s.events = .engine :: rest) :
    nextTurn s = engineTurn { s with events := rest } := by simp only [nextTurn, hev]

/-- R80: on its turn a busy engine runs the command whose word it accepted. -/
theorem step_of_busy_turn {u : State} (hn : nextTurn s = engineTurn u) (hb : u.phase = .busy)
    (hd : decode u.cmd = .ok i) : step s = exec i u :=
  step_of_run (hn.trans (engineTurn_of_busy hb hd))

/-! ### Hazards after a completion -/

/-- R158: an address in a window not yet shown complete is a destination hazard, whatever the engine does. -/
theorem destHazard_of_unacked {w : Window} {a : Nat} (hw : w ∈ s.unacked) (ha : w.contains a = true) :
    s.destHazard a = true := by
  rw [State.destHazard, Bool.or_eq_true, List.any_eq_true]
  exact .inr ⟨w, hw, ha⟩

theorem hostMemRead_of_hazard {a : Nat} (ha : memAccess s a = none) (hd : s.destHazard a = true) :
    hostMemRead a s = .fault .hazardDestRead := by simp [hostMemRead, ha, hd]

/-- R158: an idle engine all of whose completions have been shown has no destination hazard. -/
theorem destHazard_of_acknowledged (a : Nat) (hi : s.phase = .idle) (hu : s.unacked = []) :
    s.destHazard a = false := by simp [destHazard_eq_false_iff, hi, hu]

/-! ### The fate of a memory command by its windows -/

/-- R56, R57, U15: what keeps the windows of a command from being ordinary memory, range by range. -/
theorem windowsOrdinary_eq_false_of_overlap
    (h : (∃ w ∈ s.platform.notMemory,
        w.overlaps s.latched.srcWindow = true ∨ w.overlaps s.latched.dstWindow = true) ∨
      (s.platform.engineSeesRegs = true ∧
        (s.platform.regWindow.overlaps s.latched.srcWindow = true ∨
          s.platform.regWindow.overlaps s.latched.dstWindow = true))) :
    s.windowsOrdinary = false := by
  rw [windowsOrdinary_eq_false_iff, engineOrdinary_eq_false_iff, engineOrdinary_eq_false_iff]
  rcases h with ⟨w, hw, hsrc | hdst⟩ | ⟨hsees, hsrc | hdst⟩
  · exact .inl (.inl ⟨w, hw, hsrc⟩)
  · exact .inr (.inl ⟨w, hw, hdst⟩)
  · exact .inl (.inr ⟨hsees, hsrc⟩)
  · exact .inr (.inr ⟨hsees, hdst⟩)

variable {b : Nat}

/-- R82 to R85, R80: a memory command whose register checks fail ends with that error. -/
theorem exec_of_check {e : ErrCode} (hb : bpp i = some b) (hc : checkOperands b s.latched = some e) :
    exec i s = .next (State.raise { s with acc := accOf i s } e) :=
  (exec_memory hb).trans (runMemory_of_check (s := { s with acc := accOf i s }) b _ _ _ hc)

/-- R56, R57 (log 5): a memory command that passes the register checks on windows that are no ordinary memory. -/
theorem exec_of_not_ordinary (hb : bpp i = some b) (hp : OperandsPass b s.latched) (ho : s.windowsOrdinary = false) :
    exec i s = .refused .windowNotMemory :=
  (exec_memory hb).trans
    (runMemory_of_not_ordinary (s := { s with acc := accOf i s }) b _ _ _ ((checkOperands_none_iff b _).2 hp) ho)

/-- R86: the output of an OK memory command fits its destination window. -/
theorem exec_output_fits (hb : bpp i = some b) (hok : t.err = .ok) (h : exec i s = .next t) :
    (outOf i s.latched s.snap).length ≤ s.latched.dstLen.toNat := by
  cases exec_cases h with
  | nop hi _ | pack hi _ => subst hi; cases hb
  | failed _ e _ hc eq =>
    subst eq
    rcases checkOperands_error hc with rfl | rfl | rfl <;> cases hok
  | overflow _ _ _ _ eq => subst eq; cases hok
  | written _ _ _ fits _ => rwa [outOf_length]

end

/-! ### Where CONVERT puts each byte -/

/-- In a concatenation of blocks of `n` items the `p`-th item of block `y` stands at `y * n + p`. -/
theorem getElem?_flatMap_of_const {α β : Type} {l : List α} {f : α → List β} {n y p : Nat} {a : α}
    (h : ∀ x ∈ l, (f x).length = n) (hy : l[y]? = some a) (hp : p < n) :
    (l.flatMap f)[y * n + p]? = (f a)[p]? := by
  induction l generalizing y with
  | nil => cases hy
  | cons x l ih =>
    obtain ⟨hx, hl⟩ := List.forall_mem_cons.1 h
    rw [List.flatMap_cons]
    cases y with
    | zero =>
      obtain rfl : x = a := by simpa using hy
      rw [Nat.zero_mul, Nat.zero_add, List.getElem?_append_left (hx ▸ hp)]
    | succ y =>
      have hblock : (y + 1) * n + p = (f x).length + (y * n + p) := by rw [hx]; ring
      rw [hblock, List.getElem?_append_right (Nat.le_add_right _ _), Nat.add_sub_cancel_left]
      exact ih hl (by simpa using hy)

section

variable (be : Bool) (r : Regs) (m : Memory)

/-- R102: byte `p` of output row `y`. -/
theorem outConvert_getElem? {y p : Nat} (hy : y < r.height.toNat) (hp : p < destStride r.width.toNat) :
    (outConvert be r m)[y * destStride r.width.toNat + p]? = (convertRow be r m y)[p]? :=
  getElem?_flatMap_of_const (fun y _ => convertRow_length r m be y) (List.getElem?_range hy) hp

theorem rowPixels_length (y : Nat) :
    ((List.range r.width.toNat).flatMap fun x => pixelBytes be r m x y).length = pixBytes * r.width.toNat := by
  rw [length_flatMap_of_const _ fun x _ => pixelBytes_length r m be x y, List.length_range]

/-- R102: byte `j` of pixel `x` of a row. -/
theorem convertRow_pixel {x j : Nat} (y : Nat) (hx : x < r.width.toNat) (hj : j < pixBytes) :
    (convertRow be r m y)[x * pixBytes + j]? = (pixelBytes be r m x y)[j]? := by
  have hin : x * pixBytes + j < pixBytes * r.width.toNat := by
    unfold pixBytes at hj ⊢
    omega
  rw [convertRow, List.getElem?_append_left (by rwa [rowPixels_length])]
  exact getElem?_flatMap_of_const (fun x _ => pixelBytes_length r m be x y) (List.getElem?_range hx) hj

/-- R102: the bytes of a row after its pixels. -/
theorem convertRow_padding {p : Nat} (y : Nat) (hlow : pixBytes * r.width.toNat ≤ p)
    (hhigh : p < destStride r.width.toNat) : (convertRow be r m y)[p]? = some 0 := by
  rw [convertRow, List.getElem?_append_right (by rwa [rowPixels_length]), rowPixels_length,
    List.getElem?_replicate_of_lt (by omega)]

/-- R102: byte `j` of pixel (x, y) in the whole output. -/
theorem outConvert_pixel {x y j : Nat} (hx : x < r.width.toNat) (hy : y < r.height.toNat) (hj : j < pixBytes) :
    (outConvert be r m)[y * destStride r.width.toNat + (x * pixBytes + j)]? = (pixelBytes be r m x y)[j]? := by
  have hin : x * pixBytes + j < destStride r.width.toNat := by
    have hrow := pixels_le_destStride r.width.toNat
    unfold pixBytes at hj hrow ⊢
    omega
  rw [outConvert_getElem? be r m hy hin, convertRow_pixel be r m y hx hj]

end

/-- R8: the first byte of a word is its high one exactly in big-endian order. -/
theorem word_getElem?_zero (be : Bool) (v : Half) :
    (word be v)[0]? = some (if be then v.extractLsb' 8 8 else v.extractLsb' 0 8) := by cases be <;> rfl

theorem word_getElem?_one (be : Bool) (v : Half) :
    (word be v)[1]? = some (if be then v.extractLsb' 0 8 else v.extractLsb' 8 8) := by cases be <;> rfl

/-! ### Which bytes of the snapshot a memory command reads -/

/-- R46, R95, R110: how many bytes of a `b`-byte pixel are read: B, G and R of a source pixel, both of an RGB565
pixel. -/
def usedBytes (b : Nat) : Nat := if b = 4 then 3 else 2

/-- Two memories agree on the used bytes of every pixel. -/
def PixelBytesAgree (b : Nat) (r : Regs) (m n : Memory) : Prop :=
  ∀ x y j : Nat, x < r.width.toNat → y < r.height.toNat → j < usedBytes b →
    m.read (pixelAddr r.srcBase.toNat r.srcStride.toNat b x y + j) =
      n.read (pixelAddr r.srcBase.toNat r.srcStride.toNat b x y + j)

section

variable {r : Regs} {m n : Memory}

/-- R46, R95: the alpha byte of a source pixel does not matter. -/
theorem sourcePixel_congr {o : Nat} (h : ∀ j < usedBytes srcBpp, m.read (o + j) = n.read (o + j)) :
    sourcePixel m o = sourcePixel n o := by
  have hb : m.read o = n.read o := h 0 (by decide)
  rw [sourcePixel, sourcePixel, h 2 (by decide), h 1 (by decide), hb]

/-- R102: CONVERT reads used bytes of source pixels only. -/
theorem outConvert_congr (be : Bool) (h : PixelBytesAgree srcBpp r m n) : outConvert be r m = outConvert be r n := by
  refine List.flatMap_congr fun y hy => ?_
  have hpixels : ((List.range r.width.toNat).flatMap fun x => pixelBytes be r m x y) =
      (List.range r.width.toNat).flatMap fun x => pixelBytes be r n x y :=
    List.flatMap_congr fun x hx => congrArg (word be) <|
      sourcePixel_congr fun j hj => h x y j (List.mem_range.1 hx) (List.mem_range.1 hy) hj
  rw [convertRow, convertRow, hpixels]

/-- R110: a row of the RGB565 buffer is read at the two bytes of its pixels. -/
theorem rowVals_congr (be : Bool) {y : Nat} (h : PixelBytesAgree pixBytes r m n) (hy : y < r.height.toNat) :
    rowVals be r m y = rowVals be r n y := by
  refine List.map_congr_left fun x hx => ?_
  have hbyte := fun j hj => h x y j (List.mem_range.1 hx) hy hj
  exact congrArg₂ (rd16 be) (hbyte 0 (by decide)) (hbyte 1 (by decide))

theorem flat_congr (be : Bool) (h : PixelBytesAgree pixBytes r m n) : flat be r m = flat be r n :=
  List.flatMap_congr fun _ hy => rowVals_congr be h (List.mem_range.1 hy)

theorem outRleRow_congr (be : Bool) (h : PixelBytesAgree pixBytes r m n) : outRleRow be r m = outRleRow be r n := by
  refine congrArg (header _ _ ++ ·) (List.flatMap_congr fun y hy => ?_)
  rw [rowStream, rowStream, rowTokens, rowTokens, rowVals_congr be h (List.mem_range.1 hy)]

variable {i : Instr} {b : Nat}

/-- R52: a memory command's output depends on the used bytes of its pixels only. -/
theorem outOf_congr (hb : bpp i = some b) (h : PixelBytesAgree b r m n) : outOf i r m = outOf i r n := by
  cases i with
  | nop | pack => cases hb
  | convert be => cases hb; exact outConvert_congr be h
  | extract inBE outBE => cases hb; exact congrArg (List.flatMap (word outBE)) (flat_congr inBE h)
  | rleRow be => cases hb; exact outRleRow_congr be h
  | rleGlobal be => cases hb; exact congrArg (fun vs => (runs vs).flatMap tok) (flat_congr be h)

/-- Equal outputs have equal lengths, so the formulas of log 18 agree too. -/
theorem lenOf_congr (hb : bpp i = some b) (h : PixelBytesAgree b r m n) : lenOf i r m = lenOf i r n := by
  rw [← outOf_length, ← outOf_length, outOf_congr hb h]

theorem accRleRow_congr (be : Bool) (h : PixelBytesAgree pixBytes r m n) : accRleRow be r m = accRleRow be r n := by
  unfold accRleRow
  split
  · rfl
  · split_ifs with hh
    · rfl
    · rw [rowVals_congr be h (Nat.sub_one_lt hh)]

theorem accRleGlobal_congr (be : Bool) (h : PixelBytesAgree pixBytes r m n) :
    accRleGlobal be r m = accRleGlobal be r n := by
  rw [accRleGlobal, accRleGlobal, flat_congr be h]

variable {s : State}

/-- Log 13: so does the accumulator an RLE command leaves. -/
theorem accOf_congr (hb : bpp i = some b) (h : PixelBytesAgree b s.latched m s.snap) :
    accOf i { s with snap := m } = accOf i s := by
  cases i with
  | nop | pack => cases hb
  | convert _ | extract _ _ => rfl
  | rleRow be => cases hb; exact accRleRow_congr be h
  | rleGlobal be => cases hb; exact accRleGlobal_congr be h

/-- An outcome with another snapshot in its next state. -/
def withSnap (m : Memory) : Host.Outcome State Fault Refusal → Host.Outcome State Fault Refusal
  | .next t => .next { t with snap := m }
  | .fault f => .fault f
  | .refused f => .refused f

/-- R87: the run of a memory command looks at the snapshot only through its output and the output's length. -/
theorem runMemory_snap (b : Nat) {len : Regs → Memory → Nat} {out : Regs → Memory → List Byte}
    (stride : Regs → Word → Word) (hlen : len s.latched m = len s.latched s.snap)
    (hout : out s.latched m = out s.latched s.snap) :
    State.runMemory b len out stride { s with snap := m } = withSnap m (s.runMemory b len out stride) := by
  let s' : State := { s with snap := m }
  cases hc : checkOperands b s.latched with
  | some e => rw [runMemory_of_check b len out stride hc, runMemory_of_check (s := s') b len out stride hc]; rfl
  | none =>
    cases ho : s.windowsOrdinary with
    | false =>
      rw [runMemory_of_not_ordinary b len out stride hc ho,
        runMemory_of_not_ordinary (s := s') b len out stride hc ho]
      rfl
    | true =>
      rcases Nat.lt_or_ge s.latched.dstLen.toNat (len s.latched s.snap) with hn | hn
      · rw [runMemory_of_overflow b len out stride hc ho hn,
          runMemory_of_overflow (s := s') b len out stride hc ho (hn.trans_eq hlen.symm), hlen]
        rfl
      · rw [runMemory_of_fits b len out stride hc ho hn,
          runMemory_of_fits (s := s') b len out stride hc ho (hlen.trans_le hn), hlen, hout]
        rfl

/-- R52: on a snapshot with the same pixel bytes a memory command has the same outcome. -/
theorem exec_snap (hb : bpp i = some b) (h : PixelBytesAgree b s.latched m s.snap) :
    exec i { s with snap := m } = withSnap m (exec i s) := by
  rw [exec_memory hb, exec_memory hb, accOf_congr hb h]
  exact runMemory_snap (s := { s with acc := accOf i s }) b (strideOf i) (lenOf_congr hb h) (outOf_congr hb h)

end

end Sys2Proof.Machine

namespace Sys2Proof.Proofs

open Sys2Proof.Machine

/-- Settles O30: the outcome on the second snapshot is the outcome on the first with the snapshot exchanged. -/
theorem readsOnlyPixelBytes : Obligations.ReadsOnlyPixelBytes := by
  intro i b s m hb hagree
  rw [exec_snap hb hagree]
  refine ⟨fun t ht => ?_, fun r hr => ?_⟩
  · rw [ht]; rfl
  · rw [hr]; rfl

/-- Settles O20: the overlap is the first register check to fail. -/
theorem overlapCompletes : Obligations.OverlapCompletes := by
  intro i b s hb hstride hlen hrange hsrc hdst hbefore hafter
  have hc : checkOperands b s.latched = some .overlap :=
    (checkOperands_overlap_iff b s.latched).2
      ⟨hstride, hlen, hrange, fun hapart => hapart ⟨hsrc, hdst, hbefore, hafter⟩⟩
  exact ⟨accOf i s, accOf_of_not_usesAcc s, exec_of_check hb hc⟩

/-- Settles O27: the laws of a byte sequence written to memory, at DST_BASE. -/
theorem okWritesExactlyOutput : Obligations.OkWritesExactlyOutput := by
  intro i s t hwf h
  refine ⟨fun herr => exec_mem_of_error herr h, fun hb => ?_, fun hb hok => ?_, fun u hu => ?_⟩
  · obtain ⟨-, -, -, hmem⟩ := exec_of_no_output hb h
    exact hmem
  · obtain ⟨b, hb⟩ := Option.ne_none_iff_exists'.1 hb
    obtain ⟨hend, hmem⟩ := exec_mem_of_ok hb hok h
    rw [hmem]
    exact ⟨exec_output_fits hb hok h, fun k hk => Memory.read_writeBytes_inside hwf hend k hk,
      fun a ha => Memory.read_writeBytes_outside ha⟩
  · cases hu
    rfl

/-- Settles O34: the two bytes of a pixel, and the padding after a row's pixels. -/
theorem convertOutputPixels : Obligations.ConvertOutputPixels := by
  intro be r m y hy
  refine ⟨fun x hx => ⟨?_, ?_⟩, fun p hlow hhigh => ?_⟩
  · exact (outConvert_pixel be r m hx hy (j := 0) (by decide)).trans (word_getElem?_zero be _)
  · exact (outConvert_pixel be r m hx hy (j := 1) (by decide)).trans (word_getElem?_one be _)
  · exact (outConvert_getElem? be r m hy hhigh).trans (convertRow_padding be r m y hlow hhigh)

/-- Settles O55: the mark of the completed command makes the hazard, and the STATUS read removes it. -/
theorem statusReadEndsHazard : Obligations.StatusReadEndsHazard := by
  intro s a w rest hidle hready haddr hreg hord hw hin
  have hacc : memAccess s a = none := (memAccess_none_iff a).2 ⟨haddr, hreg, hord⟩
  refine ⟨fun hev => ?_, fun hev => ?_⟩
  · rw [step_of_memRead hev]
    exact hostMemRead_of_hazard hacc (destHazard_of_unacked hw hin)
  · refine ⟨_, step_of_ready_read hready (offset_wf .status) hev, ?_⟩
    rw [if_pos ⟨rfl, hidle⟩, step_of_memRead rfl]
    exact hostMemRead_of_access hacc (destHazard_of_acknowledged a hidle rfl)

/-- Settles O5: in each of the four cases it is the turn of a busy engine. -/
theorem stepRunsAcceptedCommand : Obligations.StepRunsAcceptedCommand := by
  refine ⟨fun s i rest hbusy hdec => ⟨fun hev => ?_, fun hev => ?_, fun hev => ?_⟩, fun s nbits w i hdec => ?_⟩
  · exact step_of_busy_turn (nextTurn_of_nil hev) hbusy hdec
  · exact step_of_busy_turn (nextTurn_of_engine hev) hbusy hdec
  · exact step_of_busy_turn (nextTurn_of_wait_busy hev hbusy) hbusy hdec
  · exact step_of_busy_turn (nextTurn_of_engine rfl) rfl hdec

/-- Settles O22: a window that meets such a range is not ordinary memory. -/
theorem notMemoryWindowRefused : Obligations.NotMemoryWindowRefused :=
  fun _ _ _ hb hpass hmeets => exec_of_not_ordinary hb hpass (windowsOrdinary_eq_false_of_overlap hmeets)

end Sys2Proof.Proofs
end

section
/-! PROOFS. 30_encoding.md: the four fields of a command word, what the decoder answers by RSVD and OP, the acceptance
and completion of an illegal word, and the settled statements about them (O1 to O4, O6). -/

namespace Sys2Proof

/-! ### The fields of a command word -/

/-- R63: a command word is its four fields, RSVD on top. -/
theorem word_eq_append_fields (w : Word) :
    w = cmdRsvd w ++ BitVec.ofBool (cmdOutBE w) ++ BitVec.ofBool (cmdInBE w) ++ w.extractLsb' 0 4 := by
  refine BitVec.eq_of_getLsbD_eq fun i hi => ?_
  simp only [cmdRsvd, cmdOutBE, cmdInBE, BitVec.getLsbD_append, BitVec.getLsbD_extractLsb', BitVec.getLsbD_ofBool]
  grind

/-- R63: two words with the same fields are the same word. -/
theorem word_ext {v w : Word} (hrsvd : cmdRsvd v = cmdRsvd w) (hop : cmdOp v = cmdOp w)
    (hin : cmdInBE v = cmdInBE w) (hout : cmdOutBE v = cmdOutBE w) : v = w := by
  rw [word_eq_append_fields v, word_eq_append_fields w, hrsvd, hin, hout, BitVec.eq_of_toNat_eq hop]

/-- A mask over all of RSVD and OP leaves both fields and takes each mode bit or clears it. -/
theorem and_mask_eq_iff {mask : Word} (v w : Word) (hrsvd : cmdRsvd mask = BitVec.allOnes 26) (hop : cmdOp mask = 15) :
    w &&& mask = v ↔
      cmdRsvd w = cmdRsvd v ∧ cmdOp w = cmdOp v ∧
        (cmdInBE w && cmdInBE mask) = cmdInBE v ∧ (cmdOutBE w && cmdOutBE mask) = cmdOutBE v := by
  have hr : cmdRsvd (w &&& mask) = cmdRsvd w := by
    rw [cmdRsvd, BitVec.extractLsb'_and, ← cmdRsvd, ← cmdRsvd, hrsvd, BitVec.and_allOnes]
  have ho : cmdOp (w &&& mask) = cmdOp w := by
    rw [cmdOp, BitVec.extractLsb'_and, BitVec.toNat_and, ← cmdOp, ← cmdOp, hop]
    exact Nat.and_two_pow_sub_one_of_lt_two_pow (n := 4) (w.extractLsb' 0 4).isLt
  have hi : cmdInBE (w &&& mask) = (cmdInBE w && cmdInBE mask) := BitVec.getLsbD_and
  have hu : cmdOutBE (w &&& mask) = (cmdOutBE w && cmdOutBE mask) := BitVec.getLsbD_and
  rw [← hr, ← ho, ← hi, ← hu]
  exact ⟨fun h => h ▸ ⟨rfl, rfl, rfl, rfl⟩, fun ⟨h₁, h₂, h₃, h₄⟩ => word_ext h₁ h₂ h₃ h₄⟩

/-- R63 to R65: the fields of every command's word. -/
theorem encode_fields (i : Instr) : Laws.EncodesFields.Statement i := by
  cases i with
  | nop => exact Laws.EncodesFields.nop
  | pack => exact Laws.EncodesFields.pack
  | convert inBE => exact Laws.EncodesFields.convert inBE
  | extract inBE outBE => exact Laws.EncodesFields.extract inBE outBE
  | rleRow inBE => exact Laws.EncodesFields.rleRow inBE
  | rleGlobal inBE => exact Laws.EncodesFields.rleGlobal inBE

/-- R65: the used bits are all of RSVD and OP, and the mode bits the mnemonic uses. -/
theorem usedBits_fields (i : Instr) :
    cmdRsvd i.usedBits = BitVec.allOnes 26 ∧ cmdOp i.usedBits = 15 ∧
      cmdInBE i.usedBits = i.mnemonic.usesInBE ∧ cmdOutBE i.usedBits = i.mnemonic.usesOutBE := by
  unfold Instr.usedBits
  cases i.mnemonic <;> decide

/-! ### What the decoder answers -/

/-- R65, R71: the command of a row with given mode bits, those it ignores left out. -/
def Mnemonic.instr (inBE outBE : Bool) : Mnemonic → Instr
  | .nop => .nop
  | .pack => .pack
  | .convert => .convert inBE
  | .extract => .extract inBE outBE
  | .rleRow => .rleRow inBE
  | .rleGlobal => .rleGlobal inBE

@[simp] theorem Mnemonic.mnemonic_instr (inBE outBE : Bool) (m : Mnemonic) : (m.instr inBE outBE).mnemonic = m := by
  cases m <;> rfl

/-- R65: mode bits give back the command exactly when they agree with its word in the bits it uses. -/
theorem instr_mnemonic_eq_iff (inBE outBE : Bool) (i : Instr) :
    i.mnemonic.instr inBE outBE = i ↔
      (inBE && i.mnemonic.usesInBE) = cmdInBE (encode i) ∧ (outBE && i.mnemonic.usesOutBE) = cmdOutBE (encode i) := by
  cases i with
  | nop | pack => revert inBE outBE; decide
  | convert be | rleRow be | rleGlobal be => revert inBE outBE be; decide
  | extract be obe => revert inBE outBE be obe; decide

/-- R64: the rows are numbered 0 to 5. -/
theorem Mnemonic.opcode_lt (m : Mnemonic) : m.opcode < 6 := by cases m <;> decide

theorem Mnemonic.opcode_injective : Function.Injective Mnemonic.opcode := by
  intro m n h
  cases m <;> cases n <;> cases h <;> rfl

/-- R66, R71: everything the decoder answers. -/
theorem decode_cases (w : Word) :
    (cmdRsvd w ≠ 0#26 ∧ decode w = .error .reservedBits) ∨
    (cmdRsvd w = 0#26 ∧ 6 ≤ cmdOp w ∧ decode w = .error .reservedOpcode) ∨
    (cmdRsvd w = 0#26 ∧ ∃ m : Mnemonic, cmdOp w = m.opcode ∧
      decode w = .ok (m.instr (cmdInBE w) (cmdOutBE w))) := by
  unfold decode
  split_ifs with hr
  · exact .inl ⟨hr, rfl⟩
  · have hr := not_not.1 hr
    split
    next h => exact .inr (.inr ⟨hr, .nop, h, rfl⟩)
    next h => exact .inr (.inr ⟨hr, .pack, h, rfl⟩)
    next h => exact .inr (.inr ⟨hr, .convert, h, rfl⟩)
    next h => exact .inr (.inr ⟨hr, .extract, h, rfl⟩)
    next h => exact .inr (.inr ⟨hr, .rleRow, h, rfl⟩)
    next h => exact .inr (.inr ⟨hr, .rleGlobal, h, rfl⟩)
    next h₀ h₁ h₂ h₃ h₄ h₅ =>
      simp only [imp_false] at h₀ h₁ h₂ h₃ h₄ h₅
      exact .inr (.inl ⟨hr, by omega, rfl⟩)

/-- R66: RSVD is looked at first. -/
theorem decode_eq_reservedBits_iff (w : Word) : decode w = .error .reservedBits ↔ cmdRsvd w ≠ 0#26 := by
  rcases decode_cases w with ⟨hr, hd⟩ | ⟨hr, -, hd⟩ | ⟨hr, m, -, hd⟩ <;> simp [hr, hd]

/-- R66: with RSVD = 0, the numbers of no row. -/
theorem decode_eq_reservedOpcode_iff (w : Word) :
    decode w = .error .reservedOpcode ↔ cmdRsvd w = 0#26 ∧ 6 ≤ cmdOp w := by
  rcases decode_cases w with ⟨hr, hd⟩ | ⟨hr, ho, hd⟩ | ⟨hr, m, ho, hd⟩
  · simp [hr, hd]
  · simp [hr, ho, hd]
  · simp [hd, ho, m.opcode_lt]

/-- R66: an illegal word is no command. -/
theorem decode_error_of_illegal {w : Word} (h : 6 ≤ cmdOp w ∨ cmdRsvd w ≠ 0#26) : ∃ e, decode w = .error e := by
  by_cases hr : cmdRsvd w = 0#26
  · exact ⟨_, (decode_eq_reservedOpcode_iff w).2 ⟨hr, h.resolve_right (not_not.2 hr)⟩⟩
  · exact ⟨_, (decode_eq_reservedBits_iff w).2 hr⟩

/-- R64, R65, R71: the words of a command, by their fields. -/
theorem decode_eq_ok_iff (w : Word) (i : Instr) :
    decode w = .ok i ↔
      cmdRsvd w = 0#26 ∧ cmdOp w = i.mnemonic.opcode ∧ i.mnemonic.instr (cmdInBE w) (cmdOutBE w) = i := by
  rcases decode_cases w with ⟨hr, hd⟩ | ⟨-, ho, hd⟩ | ⟨hr, m, ho, hd⟩
  · simp [hr, hd]
  · have hne : cmdOp w ≠ i.mnemonic.opcode := (i.mnemonic.opcode_lt.trans_le ho).ne'
    simp [hne, hd]
  · rw [hd, Except.ok.injEq]
    constructor
    · rintro rfl
      simp [hr, ho]
    · rintro ⟨-, hop, hi⟩
      rw [Mnemonic.opcode_injective (ho.symm.trans hop), hi]

/-- R64: the words of a row. -/
theorem decode_mnemonic_iff (w : Word) (m : Mnemonic) :
    (∃ i, decode w = .ok i ∧ i.mnemonic = m) ↔ cmdRsvd w = 0#26 ∧ cmdOp w = m.opcode := by
  constructor
  · rintro ⟨i, hd, rfl⟩
    obtain ⟨hr, ho, -⟩ := (decode_eq_ok_iff w i).1 hd
    exact ⟨hr, ho⟩
  · rintro ⟨hr, ho⟩
    refine ⟨m.instr (cmdInBE w) (cmdOutBE w), (decode_eq_ok_iff w _).2 ?_, m.mnemonic_instr _ _⟩
    simp [hr, ho]

end Sys2Proof

namespace Sys2Proof.Machine

/-! ### The life of a command word that decodes to nothing -/

section

variable {s : State} {rest : List Event}

/-- R77: a write to CMD in an idle ready engine is accepted, whatever the word. -/
theorem step_of_cmd_write {w : Word} (hr : s.resetLine = .ready) (hi : s.phase = .idle)
    (hev : s.events = .regWrite 32 Reg.cmd.offset w :: rest) :
    step s = .next (State.accept { s with events := rest } w) := by
  rw [step_of_ready_write hr (offset_wf .cmd) hev, writeOffset_cmd (s := { s with events := rest }) w hi]

/-- R66, R81: on its turn a busy engine completes a word that is no command as ILLEGAL. -/
theorem step_of_illegal_turn {u : State} {e : Reject} (hn : nextTurn s = engineTurn u) (hb : u.phase = .busy)
    (hd : decode u.cmd = .error e) : step s = .next (u.complete .illegal) :=
  step_of_other (hn.trans (by simp only [engineTurn, hb, hd, completeIllegal]))

end

end Sys2Proof.Machine

namespace Sys2Proof.Proofs

open Sys2Proof.Machine

/-- Settles O3: both sides say RSVD = 0, the opcode of `i`, and the mode bits of `i` where it uses them. -/
theorem decodeByUsedBits : Obligations.DecodeByUsedBits := by
  intro w i
  obtain ⟨hrsvd, hop, hin, hout⟩ := usedBits_fields i
  obtain ⟨hrsvdEnc, hopEnc, -⟩ := encode_fields i
  rw [decode_eq_ok_iff, instr_mnemonic_eq_iff, and_mask_eq_iff (encode i) w hrsvd hop, hin, hout, hrsvdEnc, hopEnc]

/-- Settles O4: the table's mask is RSVD and OP. -/
theorem decodeMatchesOpcodeTable : Obligations.DecodeMatchesOpcodeTable := by
  refine ⟨fun w m => ?_, decode_eq_reservedBits_iff, decode_eq_reservedOpcode_iff⟩
  obtain ⟨hrsvd, hop, hin, hout⟩ : cmdRsvd (BitVec.ofNat 32 m.opcode) = 0#26 ∧
      cmdOp (BitVec.ofNat 32 m.opcode) = m.opcode ∧ cmdInBE (BitVec.ofNat 32 m.opcode) = false ∧
      cmdOutBE (BitVec.ofNat 32 m.opcode) = false := by cases m <;> decide
  have hmaskIn : cmdInBE 0xFFFFFFCF#32 = false := by decide
  have hmaskOut : cmdOutBE 0xFFFFFFCF#32 = false := by decide
  rw [decode_mnemonic_iff, and_mask_eq_iff _ w (by decide) (by decide), hrsvd, hop, hin, hout, hmaskIn, hmaskOut]
  simp

/-- Settles O6: the word is accepted like any other, and decodes to nothing on the engine's turn. -/
theorem illegalWordCompletes : Obligations.IllegalWordCompletes := by
  intro s w rest hillegal hready hidle hev
  obtain ⟨e, hd⟩ := decode_error_of_illegal hillegal
  exact ⟨_, step_of_cmd_write hready hidle hev, step_of_illegal_turn (nextTurn_of_engine rfl) rfl hd⟩

/-- Settles O2: the word of a command has no bit that the command ignores. -/
theorem decodeOfEncode : Obligations.DecodeOfEncode := by
  intro i
  obtain ⟨-, -, hmasked⟩ := encode_fields i
  exact (decodeByUsedBits (encode i) i).2 hmasked

/-- R74: a word that is a command's word decodes to that command. -/
theorem encode_eq_and_decode_eq (i : Instr) {w : Word} (h : encode i = w) : encode i = w ∧ decode w = .ok i :=
  ⟨h, h ▸ decodeOfEncode i⟩

/-- Settles O1: each word is its command's, which O2 decodes. -/
theorem canonicalWordsDecode : Obligations.CanonicalWordsDecode :=
  ⟨encode_eq_and_decode_eq .nop rfl, encode_eq_and_decode_eq .pack rfl,
    encode_eq_and_decode_eq (.convert false) rfl, encode_eq_and_decode_eq (.convert true) rfl,
    encode_eq_and_decode_eq (.extract false false) rfl, encode_eq_and_decode_eq (.extract true false) rfl,
    encode_eq_and_decode_eq (.extract false true) rfl, encode_eq_and_decode_eq (.extract true true) rfl,
    encode_eq_and_decode_eq (.rleRow false) rfl, encode_eq_and_decode_eq (.rleRow true) rfl,
    encode_eq_and_decode_eq (.rleGlobal false) rfl, encode_eq_and_decode_eq (.rleGlobal true) rfl⟩

end Sys2Proof.Proofs
end

section
/-! PROOFS. 40_command.md: the fate of a memory command by its checks and its output's length, what its result depends
on, the release of reset, and the settled statements about a command's acceptance and completion (O7, O13, O16, O18, O19,
O21, O23 to O26, O29, O32, O52, O53, O59). -/

namespace Sys2Proof.Machine

section

variable {s t : State} {i : Instr} {b : Nat}

/-! ### The fate of a memory command with ordinary windows -/

/-- R86, R88: the output of a memory command does not fit. -/
theorem exec_of_overflow (hb : bpp i = some b) (hp : OperandsPass b s.latched) (ho : s.windowsOrdinary = true)
    (hn : s.latched.dstLen.toNat < (outOf i s.latched s.snap).length) :
    exec i s = .next (State.complete
      { s with
        acc := accOf i s
        outLen := sat32 (outOf i s.latched s.snap).length
        dstStride := strideOf i s.latched s.dstStride } .overflow) := by
  rw [outOf_length] at hn ⊢
  exact (exec_memory hb).trans
    (runMemory_of_overflow (s := { s with acc := accOf i s }) b _ _ _ ((checkOperands_none_iff b _).2 hp) ho hn)

/-- R53, R80: the output of a memory command fits. -/
theorem exec_of_fits (hb : bpp i = some b) (hp : OperandsPass b s.latched) (ho : s.windowsOrdinary = true)
    (hn : (outOf i s.latched s.snap).length ≤ s.latched.dstLen.toNat) :
    exec i s = .next (State.complete
      { s with
        acc := accOf i s
        mem := s.mem.writeBytes s.latched.dstBase.toNat (outOf i s.latched s.snap)
        outLen := BitVec.ofNat 32 (outOf i s.latched s.snap).length
        dstStride := strideOf i s.latched s.dstStride } .ok) := by
  rw [outOf_length] at hn ⊢
  rw [exec_memory hb, runMemory_of_fits (s := { s with acc := accOf i s }) b _ _ _
    ((checkOperands_none_iff b _).2 hp) ho hn, written_mem_eq]

/-- R56, R57: a memory command that passes the register checks goes on only where its windows are ordinary memory. -/
theorem windowsOrdinary_of_exec (hb : bpp i = some b) (hp : OperandsPass b s.latched) (h : exec i s = .next t) :
    s.windowsOrdinary = true := by
  refine Bool.of_not_eq_false fun ho => ?_
  rw [exec_of_not_ordinary hb hp ho] at h
  cases h

/-! ### What the result depends on -/

/-- R79, R92: the latched operands, the snapshot and the platform fix a command's outcome and the length it reports. -/
theorem exec_outcome_of_same {s₁ s₂ t₁ : State} (hl : s₁.latched = s₂.latched) (hs : s₁.snap = s₂.snap)
    (hp : s₁.platform = s₂.platform) (h : exec i s₁ = .next t₁) :
    ∃ t₂, exec i s₂ = .next t₂ ∧ t₂.err = t₁.err ∧ (bpp i ≠ none → t₂.outLen = t₁.outLen) := by
  have hwindows : s₂.windowsOrdinary = s₁.windowsOrdinary := by
    rw [State.windowsOrdinary, State.windowsOrdinary, hl, hp]
  cases exec_cases h with
  | nop hi eq | pack hi eq =>
    subst hi eq
    exact ⟨_, rfl, rfl, fun hb => absurd rfl hb⟩
  | failed b e hb hc eq =>
    subst eq
    exact ⟨_, exec_of_check hb (hl ▸ hc), rfl, fun _ => rfl⟩
  | overflow b hb pass long eq =>
    have ho := hwindows.trans (windowsOrdinary_of_exec hb pass h)
    rw [← outOf_length, hl, hs] at long eq
    subst eq
    exact ⟨_, exec_of_overflow hb (hl ▸ pass) ho long, rfl, fun _ => rfl⟩
  | written b hb pass fits eq =>
    have ho := hwindows.trans (windowsOrdinary_of_exec hb pass h)
    rw [← outOf_length, hl, hs] at fits eq
    subst eq
    exact ⟨_, exec_of_fits hb (hl ▸ pass) ho fits, rfl, fun _ => rfl⟩

/-- R96: the value PACK gives PACK_OUT. -/
theorem exec_pack_packOut (h : exec .pack s = .next t) : t.packOut = packWord s.latched.packIn := by
  cases h
  rfl

/-- R80, R101: the value CONVERT gives DST_STRIDE on OK and OVERFLOW. -/
theorem exec_convert_dstStride {inBE : Bool} (h : exec (.convert inBE) s = .next t)
    (hend : t.err = .ok ∨ t.err = .overflow) : t.dstStride = convertStride s.latched s.dstStride := by
  cases exec_cases h with
  | nop hi _ | pack hi _ => cases hi
  | failed _ e _ hc eq =>
    subst eq
    rcases checkOperands_error hc with rfl | rfl | rfl <;> simp at hend
  | overflow _ _ _ _ eq | written _ _ _ _ eq => subst eq; rfl

/-- R53: an OK memory command leaves its output sequence at DST_BASE. -/
theorem exec_read_output (hwf : s.mem.wf) (hb : bpp i = some b) (hok : t.err = .ok) (h : exec i s = .next t) (k : Nat)
    (hk : k < (outOf i s.latched s.snap).length) :
    t.mem.read (s.latched.dstBase.toNat + k) = (outOf i s.latched s.snap)[k] := by
  obtain ⟨hend, hmem⟩ := exec_mem_of_ok hb hok h
  rw [hmem]
  exact Memory.read_writeBytes_inside hwf hend k hk

/-- R78, R90: a command has the same outcome whatever DROPPED is, and leaves it as it is. -/
theorem exec_dropped (d : Bool) (h : exec i s = .next t) :
    exec i { s with dropped := d } = .next { t with dropped := d } := by
  let s' : State := { s with dropped := d }
  cases exec_cases h with
  | nop hi eq | pack hi eq => subst hi eq; rfl
  | failed b e hb hc eq => subst eq; exact exec_of_check (s := s') hb hc
  | overflow b hb pass long eq =>
    have ho := windowsOrdinary_of_exec hb pass h
    rw [← outOf_length] at long eq
    subst eq
    exact exec_of_overflow (s := s') hb pass ho long
  | written b hb pass fits eq =>
    have ho := windowsOrdinary_of_exec hb pass h
    rw [← outOf_length] at fits eq
    subst eq
    exact exec_of_fits (s := s') hb pass ho fits

/-- R80: a busy engine whose turn is the next event runs its command. -/
theorem step_engine_of_busy (rest : List Event) (hb : s.phase = .busy) (hd : decode s.cmd = .ok i) :
    step { s with events := .engine :: rest } = exec i { s with events := rest } :=
  step_of_busy_turn (nextTurn_of_engine (s := { s with events := .engine :: rest }) rfl) hb hd

/-- R80, R90: so has the engine's turn, an illegal word included. -/
theorem step_engine_dropped (rest : List Event) (d : Bool) (hb : s.phase = .busy) (ho : s.windowsOrdinary = true) :
    ∃ u, step { s with events := .engine :: rest } = .next u ∧ u.dropped = s.dropped ∧
      step { s with dropped := d, events := .engine :: rest } = .next { u with dropped := d } := by
  cases hd : decode s.cmd with
  | error e =>
    exact ⟨State.complete { s with events := rest } .illegal, step_of_illegal_turn (nextTurn_of_engine rfl) hb hd, rfl,
      step_of_illegal_turn (nextTurn_of_engine rfl) hb hd⟩
  | ok i =>
    obtain ⟨u, hu⟩ := exec_of_ordinary (s := { s with events := rest }) i ho
    exact ⟨u, (step_engine_of_busy rest hb hd).trans hu, (exec_completesFrom hu).dropped,
      (step_engine_of_busy (s := { s with dropped := d }) rest hb hd).trans (exec_dropped d hu)⟩

/-! ### The release of reset -/

/-- R166: the first of the two stages that end a reset. -/
theorem releaseReset_of_asserted (h : s.resetLine = .asserted) :
    s.releaseReset = { s with resetLine := .settling } := by
  rw [State.releaseReset, if_pos h]

/-- R166: the second stage. -/
theorem settleReset_of_settling (h : s.resetLine = .settling) : s.settleReset = { s with resetLine := .ready } := by
  rw [State.settleReset, if_pos h]

/-- R156: no register check fails on the reset values. -/
theorem operandsPass_reset (b : Nat) : OperandsPass b Regs.reset := by
  unfold OperandsPass StrideCovers LengthCovers WindowsInRange WindowsApart
  simp [Regs.reset]

end

end Sys2Proof.Machine

namespace Sys2Proof.Proofs

open Sys2Proof.Machine

/-- Settles O18: a stride or length too small is the first register check to fail. -/
theorem malformedCompletes : Obligations.MalformedCompletes := by
  intro i b s hb hsmall
  have hc : checkOperands b s.latched = some .malformed := by
    rw [checkOperands_malformed_iff, not_and_or]
    exact hsmall.imp Nat.not_le_of_lt Nat.not_le_of_lt
  exact ⟨accOf i s, accOf_of_not_usesAcc s, exec_of_check hb hc⟩

/-- Settles O19: the range check is the first to fail. -/
theorem rangeCompletes : Obligations.RangeCompletes := by
  intro i b s hb hstride hlen hpast
  have hc : checkOperands b s.latched = some .range := by
    rw [checkOperands_range_iff, WindowsInRange, not_and_or]
    exact ⟨hstride, hlen, hpast.imp Nat.not_le_of_lt Nat.not_le_of_lt⟩
  exact ⟨accOf i s, accOf_of_not_usesAcc s, exec_of_check hb hc⟩

/-- Settles O21: the overflow of R86, with the stride each command gives. -/
theorem overflowCompletes : Obligations.OverflowCompletes := by
  intro i b s hb hpass ho hlong
  refine ⟨accOf i s, accOf_of_not_usesAcc s, (exec_of_overflow hb hpass ho hlong).trans ?_⟩
  cases i <;> rfl

/-- Settles O23: CONVERT's output has the length of R104. -/
theorem convertCompletes : Obligations.ConvertCompletes := by
  intro inBE s hpass ho hfits
  have hlen := outConvert_length s.latched s.snap inBE
  have h := exec_of_fits (i := .convert inBE) rfl hpass ho (hlen.trans_le hfits)
  rwa [outOf, hlen] at h

/-- Settles O24: EXTRACT's output has the length of R111. -/
theorem extractCompletes : Obligations.ExtractCompletes := by
  intro inBE outBE s hpass ho hfits
  have hlen := outExtract_length s.latched s.snap inBE outBE
  have h := exec_of_fits (i := .extract inBE outBE) rfl hpass ho (hlen.trans_le hfits)
  rwa [outOf, hlen] at h

/-- Settles O25: the stream fits. -/
theorem rleRowCompletes : Obligations.RleRowCompletes :=
  fun inBE s hpass ho hfits => ⟨accOf (.rleRow inBE) s, exec_of_fits (i := .rleRow inBE) rfl hpass ho hfits⟩

/-- Settles O26: the stream fits. -/
theorem rleGlobalCompletes : Obligations.RleGlobalCompletes :=
  fun inBE s hpass ho hfits => ⟨accOf (.rleGlobal inBE) s, exec_of_fits (i := .rleGlobal inBE) rfl hpass ho hfits⟩

/-- Settles O29: the outcome by the cases of a run, each result by the value it has of the latches and the snapshot. -/
theorem resultDependsOnLatchedAndSnap : Obligations.ResultDependsOnLatchedAndSnap := by
  intro i s₁ s₂ t₁ hl hs hp h₁
  obtain ⟨t₂, h₂, herr, hlen⟩ := exec_outcome_of_same hl hs hp h₁
  refine ⟨t₂, h₂, herr, hlen, ?_, ?_, fun hwf₁ hwf₂ hb hok k hk => ?_⟩
  · rintro rfl
    rw [exec_pack_packOut h₂, exec_pack_packOut h₁, hl]
  · rintro ⟨inBE, rfl⟩ hend
    rw [exec_convert_dstStride h₂ (herr ▸ hend), exec_convert_dstStride h₁ hend, convertStride, convertStride, hl]
  · obtain ⟨b, hb⟩ := Option.ne_none_iff_exists'.1 hb
    rw [exec_read_output hwf₁ hb hok h₁ k hk]
    simp only [hl, hs] at hk ⊢
    exact exec_read_output hwf₂ hb (herr.trans hok) h₂ k hk

/-- Settles O32: each sequence's length is its formula; the two streams are counted token by token. -/
theorem outputLengths : Obligations.OutputLengths := by
  intro inBE outBE r m
  have hrows : (outRleRow inBE r m).length =
      4 + ((List.range r.height.toNat).map fun y => 4 * (rowTokens inBE r m y).length + 2).sum := by
    rw [outRleRow, List.length_append, header_length, List.length_flatMap,
      List.map_congr_left fun y _ => rowStream_length r m inBE y]
  exact ⟨outConvert_length r m inBE, outExtract_length r m inBE outBE, hrows, tokens_length (globalTokens inBE r m),
    (outConvert_length r m inBE).symm, (outExtract_length r m inBE outBE).symm, (outRleRow_length r m inBE).symm,
    (outRleGlobal_length r m inBE).symm⟩

/-- Settles O59: the write is dropped, and DROPPED does not matter to the engine's turn. -/
theorem droppedWriteKeepsResult : Obligations.DroppedWriteKeepsResult := by
  intro s offset v rest hbusy hready ho hoff hev
  obtain ⟨hdrop, -⟩ := ignoredWrites
  obtain ⟨u, hu, hdropped, hturn⟩ := step_engine_dropped rest true hbusy ho
  refine ⟨_, { u with dropped := true }, hdrop s offset v _ hready hbusy hev hoff, hturn, rfl, hu.trans ?_⟩
  rw [← hdropped]

/-- Settles O7: the acceptance of R77, on the event's rest. -/
theorem cmdWriteIsAccepted : Obligations.CmdWriteIsAccepted :=
  fun _ _ _ hready hidle hev => step_of_cmd_write hready hidle hev

/-- Settles O13: NOP is its completion and nothing else. -/
theorem nopCompletes : Obligations.NopCompletes := fun _ => rfl

/-- Settles O16: PACK_OUT takes `packWord` of PACK_IN, which is `pack565` of its fields. -/
theorem packCompletes : Obligations.PackCompletes := fun _ => rfl

/-- Settles O52: the two stages of the release, then an acceptance. -/
theorem resetReleaseAccepts : Obligations.ResetReleaseAccepts := by
  intro s w rest hidle hline hev
  let t : State := { s with resetLine := .settling, events := .resetSettled :: .regWrite 32 0x00 w :: rest }
  let u : State := { t with resetLine := .ready, events := .regWrite 32 0x00 w :: rest }
  have hst : step s = .next t :=
    (step_of_resetRelease hev).trans (congrArg Host.Outcome.next (releaseReset_of_asserted hline))
  have htu : step t = .next u :=
    (step_of_resetSettled rfl).trans (congrArg Host.Outcome.next (settleReset_of_settling rfl))
  exact ⟨t, u, hst, htu, step_of_cmd_write (s := u) rfl hidle rfl⟩

/-- Settles O53: the checks pass and both windows are empty, so only the output's length decides: 4 for RLE_ROW's header
and 0 for the rest. -/
theorem emptyCommandsFromReset : Obligations.EmptyCommandsFromReset := by
  intro i hb
  let s : State := State.reset.accept (encode i)
  have ho : s.windowsOrdinary = true := rfl
  cases i with
  | nop | pack => exact absurd rfl hb
  | convert _ | extract _ _ | rleGlobal _ =>
    exact ⟨_, exec_of_fits (s := s) rfl (operandsPass_reset _) ho (Nat.le_refl 0), rfl, fun _ => ⟨rfl, rfl⟩, nofun⟩
  | rleRow _ =>
    exact ⟨_, exec_of_overflow (s := s) rfl (operandsPass_reset _) ho (Nat.zero_lt_succ 3), rfl, nofun,
      fun _ => ⟨rfl, rfl⟩⟩

end Sys2Proof.Proofs
end

section
/-! PROOFS. 41_color_packer.md: a packed value as its three fields, the four bytes of PACK_IN, and the settled
statements about them (O14, O15, O17). -/

namespace Sys2Proof.Machine

/-! ### The fields of a packed value -/

/-- The high bits of a vector, widened or cut to any width, are its right shift. -/
theorem setWidth_extractLsb'_high {w n len : Nat} (v : Nat) (x : BitVec w) (h : n + len = w) :
    (x.extractLsb' n len).setWidth v = (x >>> n).setWidth v := by
  refine BitVec.eq_of_getLsbD_eq fun i _ => ?_
  by_cases hi : i < len
  · simp [hi]
  · simp [hi, BitVec.getLsbD_of_ge x (n + i) (by omega)]

/-- R93: a packed value is the upper bits of R, G and B, side by side. -/
theorem pack565_eq_append (r g b : Byte) :
    pack565 r g b = r.extractLsb' 3 5 ++ g.extractLsb' 2 6 ++ b.extractLsb' 3 5 := by
  have hfields := BitVec.setWidth_append_append_eq_shiftLeft_setWidth_or (w''' := 16)
    (b := r.extractLsb' 3 5) (b' := g.extractLsb' 2 6) (b'' := b.extractLsb' 3 5)
  rw [setWidth_extractLsb'_high 16 r rfl, setWidth_extractLsb'_high 16 g rfl, setWidth_extractLsb'_high 16 b rfl,
    BitVec.setWidth_eq] at hfields
  exact hfields.symm

/-- R94: bits 15..11 of a packed value. -/
@[simp] theorem pack565_red (r g b : Byte) : (pack565 r g b).extractLsb' 11 5 = r.extractLsb' 3 5 := by
  rw [pack565_eq_append, BitVec.extractLsb'_append_eq_of_le (by decide), BitVec.extractLsb'_append_eq_left]

/-- R94: bits 10..5. -/
@[simp] theorem pack565_green (r g b : Byte) : (pack565 r g b).extractLsb' 5 6 = g.extractLsb' 2 6 := by
  rw [pack565_eq_append, BitVec.extractLsb'_append_eq_of_le (by decide), BitVec.extractLsb'_append_eq_right]

/-- R94: bits 4..0. -/
@[simp] theorem pack565_blue (r g b : Byte) : (pack565 r g b).extractLsb' 0 5 = b.extractLsb' 3 5 := by
  rw [pack565_eq_append, BitVec.extractLsb'_append_eq_right]

/-- An RGB565 value is its three fields, red on top. -/
theorem half_eq_append_fields (v : Half) : v = v.extractLsb' 11 5 ++ v.extractLsb' 5 6 ++ v.extractLsb' 0 5 := by
  rw [BitVec.extractLsb'_append_extractLsb'_eq_extractLsb' (show 11 = 5 + 6 from rfl),
    BitVec.extractLsb'_append_extractLsb'_eq_extractLsb' (show 5 = 0 + 5 from rfl), BitVec.extractLsb'_eq_self]

/-- R97: the three colours that pack to a value are known by their upper bits alone. -/
theorem pack565_eq_iff (r g b : Byte) (v : Half) : pack565 r g b = v ↔
    r.extractLsb' 3 5 = v.extractLsb' 11 5 ∧ g.extractLsb' 2 6 = v.extractLsb' 5 6 ∧
      b.extractLsb' 3 5 = v.extractLsb' 0 5 := by
  constructor
  · rintro rfl
    exact ⟨(pack565_red r g b).symm, (pack565_green r g b).symm, (pack565_blue r g b).symm⟩
  · rintro ⟨hr, hg, hb⟩
    rw [pack565_eq_append, hr, hg, hb, ← half_eq_append_fields]

/-! ### The bytes of PACK_IN -/

/-- R41, R95: PACK reads the lower three of the four bytes of PACK_IN. -/
theorem packWord_append (a r g b : Byte) : packWord (a ++ r ++ g ++ b) = pack565 r g b := by
  have hr : packInR (a ++ r ++ g ++ b) = r := by
    rw [packInR, BitVec.extractLsb'_append_eq_of_le (by decide), BitVec.extractLsb'_append_eq_of_le (by decide),
      BitVec.extractLsb'_append_eq_right]
  have hg : packInG (a ++ r ++ g ++ b) = g := by
    rw [packInG, BitVec.extractLsb'_append_eq_of_le (by decide), BitVec.extractLsb'_append_eq_right]
  have hb : packInB (a ++ r ++ g ++ b) = b := BitVec.extractLsb'_append_eq_right
  rw [packWord, hr, hg, hb]

end Sys2Proof.Machine

namespace Sys2Proof.Proofs

open Sys2Proof.Machine

/-- Settles O15: the free bits by the fields of a value; a value is reached by its fields with zeros below. -/
theorem packPreimages : Obligations.PackPreimages :=
  ⟨pack565_eq_iff, fun v => (pack565_eq_iff _ _ _ v).2
    ⟨BitVec.extractLsb'_append_eq_left, BitVec.extractLsb'_append_eq_left, BitVec.extractLsb'_append_eq_left⟩⟩

/-- Settles O14: each field is the upper bits of its colour, which widened to a byte are the shift. -/
theorem packFieldLaw : Obligations.PackFieldLaw := by
  intro r g b
  rw [pack565_red, pack565_green, pack565_blue, setWidth_extractLsb'_high 8 r rfl, setWidth_extractLsb'_high 8 g rfl,
    setWidth_extractLsb'_high 8 b rfl]
  simp only [BitVec.setWidth_eq, and_self]

/-- Settles O17: both are `pack565` of the bytes at +2, +1 and +0. -/
theorem packAgreesWithConvert : Obligations.PackAgreesWithConvert :=
  fun _ _ => (packWord_append _ _ _ _).symm

end Sys2Proof.Proofs
end

section
/-! PROOFS. 42_pixel_buffer_converter.md: the destination stride, what an OK command reports, reading back the output of
CONVERT, and the settled statements about them (O33, O45). -/

namespace Sys2Proof.Machine

/-! ### The destination stride -/

/-- R100: a destination row takes four bytes for every pair of pixels begun. -/
theorem destStride_eq_four_mul (w : Nat) : destStride w = 4 * ((w + 1) / 2) := by
  unfold destStride
  omega

/-- R101: a row of odd width is padded with two bytes. -/
theorem destStride_eq_add_padding (w : Nat) : destStride w = 2 * w + (if w % 2 = 0 then 0 else 2) := by
  rw [destStride_eq_four_mul]
  split_ifs <;> omega

/-- R82: the stride register bounds the width. -/
theorem StrideCovers.width_lt {r : Regs} (h : StrideCovers 4 r) : r.width.toNat < 2 ^ 30 := by
  have hstride := r.srcStride.isLt
  unfold StrideCovers at h
  omega

/-- R101: the destination stride of a width that passes the stride check of CONVERT. -/
theorem StrideCovers.destStride_le {r : Regs} (h : StrideCovers 4 r) : destStride r.width.toNat ≤ 2 ^ 31 := by
  have hwidth := h.width_lt
  rw [destStride_eq_four_mul]
  omega

/-! ### What an OK command reports, and where its output is read -/

section

variable {s t : State} {i : Instr} {b : Nat}

/-- R82 to R85, R80: an OK memory command has passed the register checks and reports the length of its output. -/
theorem exec_pass_and_outLen_of_ok (hb : bpp i = some b) (hok : t.err = .ok) (h : exec i s = .next t) :
    OperandsPass b s.latched ∧ t.outLen = BitVec.ofNat 32 (outOf i s.latched s.snap).length := by
  rw [outOf_length]
  cases exec_cases h with
  | nop hi _ | pack hi _ => subst hi; cases hb
  | failed _ e _ hc eq =>
    subst eq
    rcases checkOperands_error hc with rfl | rfl | rfl <;> cases hok
  | overflow _ _ _ _ eq => subst eq; cases hok
  | written _ hp pass _ eq =>
    subst eq
    obtain rfl := Option.some.inj (hp.symm.trans hb)
    exact ⟨pass, rfl⟩

/-- R38: the output fits DST_LEN, so OUT_LEN holds its whole length. -/
theorem exec_outLen_toNat_of_ok (hb : bpp i = some b) (hok : t.err = .ok) (h : exec i s = .next t) :
    t.outLen.toNat = (outOf i s.latched s.snap).length := by
  obtain ⟨-, hlen⟩ := exec_pass_and_outLen_of_ok hb hok h
  rw [hlen, BitVec.toNat_ofNat, Nat.mod_eq_of_lt ((exec_output_fits hb hok h).trans_lt s.latched.dstLen.isLt)]

/-- R53: a byte of the output of an OK memory command, where the host finds it. -/
theorem exec_read_of_getElem? {k : Nat} {v : Byte} (hwf : s.mem.wf) (hb : bpp i = some b) (hok : t.err = .ok)
    (h : exec i s = .next t) (hk : (outOf i s.latched s.snap)[k]? = some v) :
    t.mem.read (s.latched.dstBase.toNat + k) = v := by
  obtain ⟨hlt, hv⟩ := List.getElem?_eq_some_iff.1 hk
  exact (exec_read_output hwf hb hok h k hlt).trans hv

end

/-! ### Reading back the output of CONVERT -/

/-- R8: the value of two bytes, the high one on top. -/
theorem rd16_eq_append (be : Bool) (b0 b1 : Byte) : rd16 be b0 b1 = if be then b0 ++ b1 else b1 ++ b0 := by
  have happend : ∀ hi lo : Byte, hi ++ lo = (hi.setWidth 16 <<< 8) ||| lo.setWidth 16 := fun hi lo =>
    (BitVec.setWidth_eq _).symm.trans BitVec.setWidth_append_eq_shiftLeft_setWidth_or
  rw [rd16, happend, happend, BitVec.or_comm (b0.setWidth 16)]

/-- R8: the two bytes of a word, read in the byte order they were written in. -/
theorem rd16_word (be : Bool) (v : Half) :
    rd16 be (if be then v.extractLsb' 8 8 else v.extractLsb' 0 8)
      (if be then v.extractLsb' 0 8 else v.extractLsb' 8 8) = v := by
  have hv : v.extractLsb' 8 8 ++ v.extractLsb' 0 8 = v := by
    rw [BitVec.extractLsb'_append_extractLsb'_eq_extractLsb' (show 8 = 0 + 8 from rfl), BitVec.extractLsb'_eq_self]
  rw [rd16_eq_append]
  cases be <;> exact hv

section

variable {s t : State} {r : Regs} {be : Bool}

/-- R101: the DST_STRIDE of an OK CONVERT holds the whole destination stride. -/
theorem exec_convert_dstStride_toNat (hok : t.err = .ok) (h : exec (.convert be) s = .next t) :
    t.dstStride.toNat = destStride s.latched.width.toNat := by
  obtain ⟨⟨hstride, -⟩, -⟩ := exec_pass_and_outLen_of_ok rfl hok h
  rw [exec_convert_dstStride h (.inl hok), convertStride, BitVec.toNat_ofNat,
    Nat.mod_eq_of_lt (hstride.destStride_le.trans_lt (by decide))]

/-- R102, R110: a reader with CONVERT's stride finds at (x, y) the packed source pixel. -/
theorem exec_convert_pix {x y : Nat} (hwf : s.mem.wf) (hok : t.err = .ok) (h : exec (.convert be) s = .next t)
    (hbase : r.srcBase = s.latched.dstBase) (hstride : r.srcStride = t.dstStride)
    (hx : x < s.latched.width.toNat) (hy : y < s.latched.height.toNat) :
    pix be r t.mem x y =
      sourcePixel s.snap (pixelAddr s.latched.srcBase.toNat s.latched.srcStride.toNat srcBpp x y) := by
  have hbyte : ∀ {j v}, j < pixBytes → (pixelBytes be s.latched s.snap x y)[j]? = some v →
      t.mem.read (pixelAddr r.srcBase.toNat r.srcStride.toNat pixBytes x y + j) = v := by
    intro j v hj hv
    have hread := exec_read_of_getElem? hwf rfl hok h ((outConvert_pixel be _ _ hx hy hj).trans hv)
    rwa [← exec_convert_dstStride_toNat hok h, ← hbase, ← hstride, ← Nat.add_assoc, ← Nat.add_assoc] at hread
  have hfirst := hbyte (by decide) (word_getElem?_zero be _)
  have hsecond := hbyte (by decide) (word_getElem?_one be _)
  exact (congrArg₂ (rd16 be) hfirst hsecond).trans (rd16_word be _)

end

end Sys2Proof.Machine

namespace Sys2Proof.Proofs

open Sys2Proof.Machine

/-- Settles O45: the reader's stride and length are the destination stride and the output's length, so its pixel (x, y)
is the one CONVERT wrote there. -/
theorem convertThenReadGivesPixels : Obligations.ConvertThenReadGivesPixels := by
  intro be s t r hwf h hok hw hh hbase hstride hlen
  have hD : r.srcStride.toNat = destStride r.width.toNat := by
    rw [hstride, hw, exec_convert_dstStride_toNat hok h]
  have hL : r.srcLen.toNat = destStride r.width.toNat * r.height.toNat := by
    rw [hlen, hw, hh, exec_outLen_toNat_of_ok rfl hok h, outOf_length]
    rfl
  refine ⟨?_, ?_, ?_⟩
  · rw [StrideCovers, hD, Nat.mul_comm]
    exact pixels_le_destStride _
  · rw [LengthCovers, hD, hL]
  · rw [flat, hh]
    refine List.flatMap_congr fun y hy => ?_
    rw [rowVals, hw]
    exact List.map_congr_left fun x hx =>
      exec_convert_pix hwf hok h hbase hstride (List.mem_range.1 hx) (List.mem_range.1 hy)

/-- Settles O33: the stride is four bytes for each pair of pixels begun, and the stride check bounds the width. -/
theorem destStrideProperties : Obligations.DestStrideProperties := by
  refine ⟨fun w => ⟨rfl, destStride_eq_four_mul w, ?_, destStride_eq_add_padding w⟩,
    fun r h => ⟨h.width_lt, h.destStride_le⟩, by decide⟩
  rw [destStride_eq_four_mul, Nat.mul_mod_right]

end Sys2Proof.Proofs
end

section
/-! PROOFS. 43_word_extractor.md: the bytes of a reassembled pixel, reading with the other byte order, where EXTRACT
puts each pixel, and the settled statements about them (O35, O36). -/

namespace Sys2Proof.Machine

/-! ### The bytes of a reassembled pixel -/

/-- R112: two bytes, read in one order and written in another, keep or exchange their places. -/
theorem word_rd16 (inBE outBE : Bool) (b0 b1 : Byte) :
    word outBE (rd16 inBE b0 b1) = if inBE = outBE then [b0, b1] else [b1, b0] := by
  have hlow (hi lo : Byte) : (hi ++ lo).extractLsb' 0 8 = lo := BitVec.extractLsb'_append_eq_right
  have hhigh (hi lo : Byte) : (hi ++ lo).extractLsb' 8 8 = hi := BitVec.extractLsb'_append_eq_left
  rw [rd16_eq_append]
  cases inBE <;> cases outBE <;> simp [word, be16, le16, hlow, hhigh]

/-! ### Reading with the other byte order -/

/-- R113: a value with its two bytes exchanged. -/
def swapBytes (v : Half) : Half := ((v &&& 0x00FF#16) <<< 8) ||| (v >>> 8)

theorem swapBytes_append (hi lo : Byte) : swapBytes (hi ++ lo) = lo ++ hi := by
  have hlow : (hi ++ lo) &&& 0x00FF#16 = lo.setWidth 16 := by
    have hmask := BitVec.and_setWidth_allOnes 8 8 (hi ++ lo)
    rw [BitVec.setWidth_append_eq_right] at hmask
    exact hmask.trans (BitVec.setWidth_eq_append (by decide)).symm
  have hhigh : (hi ++ lo) >>> 8 = hi.setWidth 16 := by
    have hshift := setWidth_extractLsb'_high (n := 8) (len := 8) 16 (hi ++ lo) rfl
    rw [BitVec.extractLsb'_append_eq_left, BitVec.setWidth_eq] at hshift
    exact hshift.symm
  rw [swapBytes, hlow, hhigh, ← BitVec.setWidth_append_eq_shiftLeft_setWidth_or, BitVec.setWidth_eq]

/-- R113: the other byte order exchanges the bytes of what is read. -/
theorem rd16_not (be : Bool) (b0 b1 : Byte) : rd16 (!be) b0 b1 = swapBytes (rd16 be b0 b1) := by
  rw [rd16_eq_append, rd16_eq_append]
  cases be <;> exact (swapBytes_append _ _).symm

section

variable (inBE : Bool) (r : Regs) (m : Memory)

theorem rowVals_not (y : Nat) : rowVals (!inBE) r m y = (rowVals inBE r m y).map swapBytes := by
  rw [rowVals, rowVals, List.map_map]
  exact List.map_congr_left fun x _ => rd16_not inBE _ _

theorem flat_not : flat (!inBE) r m = (flat inBE r m).map swapBytes := by
  rw [flat, flat, List.map_flatMap]
  exact List.flatMap_congr fun y _ => rowVals_not inBE r m y

/-! ### Where EXTRACT puts each pixel -/

/-- R110: the flat sequence is row-major. -/
theorem flat_getElem? {x y : Nat} (hx : x < r.width.toNat) (hy : y < r.height.toNat) :
    (flat inBE r m)[y * r.width.toNat + x]? = some (pix inBE r m x y) := by
  rw [flat, getElem?_flatMap_of_const (fun y _ => rowVals_length inBE r m y) (List.getElem?_range hy) hx, rowVals,
    List.getElem?_map, List.getElem?_range hx, Option.map_some]

/-- R112, R114: byte `j` of output pixel `y*W + x`. -/
theorem outExtract_pixel (outBE : Bool) {x y j : Nat} (hx : x < r.width.toNat) (hy : y < r.height.toNat)
    (hj : j < pixBytes) :
    let o := pixelAddr r.srcBase.toNat r.srcStride.toNat pixBytes x y
    (outExtract inBE outBE r m)[pixBytes * (y * r.width.toNat + x) + j]? =
      (if inBE = outBE then [m.read o, m.read (o + 1)] else [m.read (o + 1), m.read o])[j]? := by
  intro o
  rw [Nat.mul_comm, ← word_rd16]
  exact getElem?_flatMap_of_const (fun v _ => word_length outBE v) (flat_getElem? inBE r m hx hy) hj

end

end Sys2Proof.Machine

namespace Sys2Proof.Proofs

open Sys2Proof.Machine

/-- Settles O35: the two bytes of an output pixel, in order or exchanged. -/
theorem extractKeepsOrSwapsBytes : Obligations.ExtractKeepsOrSwapsBytes := by
  intro inBE outBE r m
  refine ⟨outExtract_length r m inBE outBE, fun x y hx hy => ⟨?_, ?_⟩⟩
  · exact (outExtract_pixel inBE r m outBE hx hy (j := 0) (by decide)).trans (by split_ifs <;> rfl)
  · exact (outExtract_pixel inBE r m outBE hx hy (j := 1) (by decide)).trans (by split_ifs <;> rfl)

/-- Settles O36: every pixel's value is exchanged, so the rows and the flat sequence are. -/
theorem wrongByteOrderSwaps : Obligations.WrongByteOrderSwaps :=
  fun inBE r m => ⟨rowVals_not inBE r m, flat_not inBE r m⟩

end Sys2Proof.Proofs
end

section
/-! PROOFS. 44_rle_row.md: the run list from a pending run, the token lists of equal values, the words of the row stream
and what the reader makes of them, and the settled statements about them (O37, O38, O39, O42, O43). -/

namespace Sys2Proof.Machine

open Sys2Proof.Reader

/-! ### The run list, by the sequence -/

/-- R119, R120: the tokens still to come from a pending run of `k` values `v` and the values `vs` after it. -/
def runsAfter (v : Half) (k : Nat) (vs : List Half) : List Token :=
  (foldRuns ⟨true, v, k⟩ vs).2 ++ flushRun (foldRuns ⟨true, v, k⟩ vs).1

@[simp] theorem runs_nil : runs [] = [] := rfl

theorem runs_cons (v : Half) (vs : List Half) : runs (v :: vs) = runsAfter v 1 vs := rfl

@[simp] theorem runsAfter_nil (v : Half) (k : Nat) : runsAfter v k [] = [⟨k, v⟩] := rfl

/-- R119: an equal value below the cap lengthens the pending run. -/
theorem runsAfter_cons_same {v : Half} {k : Nat} (vs : List Half) (hk : k < runMax) :
    runsAfter v k (v :: vs) = runsAfter v (k + 1) vs := by
  have hstep : stepRun ⟨true, v, k⟩ v = (⟨true, v, k + 1⟩, []) := by simp [stepRun, hk]
  simp [runsAfter, foldRuns_cons, hstep]

/-- R119: another value, or any value at the cap, ends the pending run. -/
theorem runsAfter_cons_new {v w : Half} {k : Nat} (vs : List Half) (h : w = v → runMax ≤ k) :
    runsAfter v k (w :: vs) = ⟨k, v⟩ :: runsAfter w 1 vs := by
  have hend : ¬(w = v ∧ k < runMax) := fun ⟨hw, hk⟩ => hk.not_ge (h hw)
  have hstep : stepRun ⟨true, v, k⟩ w = (⟨true, w, 1⟩, [⟨k, v⟩]) := by simp [stepRun, hend]
  simp [runsAfter, foldRuns_cons, hstep]

/-- R119: an induction along the branches of `runsAfter`: no value is left, the next one lengthens the pending run, or it
ends the run. -/
theorem pendingRun_induction {P : Half → Nat → List Half → Prop} (nil : ∀ v k, P v k [])
    (same : ∀ v k vs, k < runMax → P v (k + 1) vs → P v k (v :: vs))
    (new : ∀ v k w vs, (w = v → runMax ≤ k) → P w 1 vs → P v k (w :: vs)) (v : Half) (k : Nat) (vs : List Half) :
    P v k vs := by
  induction vs generalizing v k with
  | nil => exact nil v k
  | cons w vs ih =>
    by_cases hlong : w = v ∧ k < runMax
    · obtain ⟨rfl, hk⟩ := hlong
      exact same w k vs hk (ih w (k + 1))
    · exact new v k w vs (fun hw => not_lt.1 fun hk => hlong ⟨hw, hk⟩) (ih w 1)

/-! ### What the tokens stand for -/

@[simp] theorem expand_nil : expand [] = [] := rfl

theorem expand_cons (t : Token) (ts : List Token) : expand (t :: ts) = List.replicate t.run t.value ++ expand ts := rfl

theorem expand_runsAfter (v : Half) (k : Nat) (vs : List Half) :
    expand (runsAfter v k vs) = List.replicate k v ++ vs := by
  induction v, k, vs using pendingRun_induction with
  | nil v k => simp [expand_cons]
  | same v k vs hk ih => rw [runsAfter_cons_same vs hk, ih, List.replicate_succ', ← List.append_cons]
  | new v k w vs hcap ih => rw [runsAfter_cons_new vs hcap, expand_cons, ih]; rfl

/-- R120: expanding the run list gives the sequence back. -/
theorem expand_runs (vs : List Half) : expand (runs vs) = vs := by
  cases vs with
  | nil => rfl
  | cons v vs => rw [runs_cons, expand_runsAfter]; rfl

theorem length_expand (ts : List Token) : (expand ts).length = (ts.map Token.run).sum := by
  simp [expand, List.length_flatMap]

/-- R125: the run lengths sum to the length of the sequence. -/
theorem sum_run_runs (vs : List Half) : ((runs vs).map Token.run).sum = vs.length := by
  rw [← length_expand, expand_runs]

/-- R118, R120: the run length is 1 .. 65535, so that one word holds it and it is not the word of a marker. -/
def Token.RunInRange (t : Token) : Prop := 1 ≤ t.run ∧ t.run ≤ runMax

theorem runsAfter_inRange (v : Half) (k : Nat) (vs : List Half) (h1 : 1 ≤ k) (hmax : k ≤ runMax) :
    ∀ t ∈ runsAfter v k vs, t.RunInRange := by
  induction v, k, vs using pendingRun_induction with
  | nil v k => exact List.forall_mem_singleton.2 ⟨h1, hmax⟩
  | same v k vs hk ih => rw [runsAfter_cons_same vs hk]; exact ih (Nat.le_add_left 1 k) hk
  | new v k w vs hcap ih =>
    rw [runsAfter_cons_new vs hcap]
    exact List.forall_mem_cons.2 ⟨⟨h1, hmax⟩, ih le_rfl (by decide)⟩

/-- R120: every run length is 1 .. 65535. -/
theorem runs_inRange (vs : List Half) : ∀ t ∈ runs vs, t.RunInRange := by
  cases vs with
  | nil => exact List.forall_mem_nil _
  | cons v vs => exact runsAfter_inRange v 1 vs le_rfl (by decide)

/-! ### How many tokens there are -/

/-- R128: no token is empty. -/
theorem length_runs_le (vs : List Half) : (runs vs).length ≤ vs.length := by
  have hrun : ∀ k ∈ (runs vs).map Token.run, 1 ≤ k := List.forall_mem_map.2 fun t ht => (runs_inRange vs t ht).1
  simpa [sum_run_runs] using List.card_nsmul_le_sum _ 1 hrun

/-- R128: no token holds more than 65535 values. -/
theorem length_le_runMax_mul (vs : List Half) : vs.length ≤ (runs vs).length * runMax := by
  have hrun : ∀ k ∈ (runs vs).map Token.run, k ≤ runMax :=
    List.forall_mem_map.2 fun t ht => (runs_inRange vs t ht).2
  simpa [sum_run_runs] using List.sum_le_card_nsmul _ runMax hrun

/-! ### Neighbours in a run list -/

/-- R121: two adjacent tokens have equal values only if the first is full. -/
def SplitAtCap (t u : Token) : Prop := t.value = u.value → t.run = runMax

theorem head?_runsAfter_value (v : Half) (k : Nat) (vs : List Half) : ∀ t ∈ (runsAfter v k vs).head?, t.value = v := by
  induction v, k, vs using pendingRun_induction with
  | nil v k => simp
  | same v k vs hk ih => rwa [runsAfter_cons_same vs hk]
  | new v k w vs hcap ih => simp [runsAfter_cons_new vs hcap]

theorem runsAfter_isChain (v : Half) (k : Nat) (vs : List Half) (hmax : k ≤ runMax) :
    (runsAfter v k vs).IsChain SplitAtCap := by
  induction v, k, vs using pendingRun_induction with
  | nil v k => exact .singleton _
  | same v k vs hk ih => rw [runsAfter_cons_same vs hk]; exact ih hk
  | new v k w vs hcap ih =>
    rw [runsAfter_cons_new vs hcap]
    refine List.isChain_cons.2 ⟨fun t ht heq => ?_, ih (by decide)⟩
    exact hmax.antisymm (hcap ((head?_runsAfter_value w 1 vs t ht).symm.trans heq.symm))

theorem runs_isChain (vs : List Half) : (runs vs).IsChain SplitAtCap := by
  cases vs with
  | nil => exact .nil
  | cons v vs => exact runsAfter_isChain v 1 vs (by decide)

/-! ### Equal values -/

/-- R121: the tokens of `n` equal values. -/
def cappedTokens (n : Nat) (v : Half) : List Token :=
  List.replicate (n / runMax) ⟨runMax, v⟩ ++ if n % runMax = 0 then [] else [⟨n % runMax, v⟩]

theorem cappedTokens_add_runMax (n : Nat) (v : Half) :
    cappedTokens (n + runMax) v = ⟨runMax, v⟩ :: cappedTokens n v := by
  rw [cappedTokens, Nat.add_div_right n (by decide), Nat.add_mod_right]
  rfl

theorem cappedTokens_of_le {n : Nat} (v : Half) (h1 : 1 ≤ n) (hmax : n ≤ runMax) : cappedTokens n v = [⟨n, v⟩] := by
  obtain rfl | hlt := hmax.eq_or_lt
  · simp [cappedTokens, runMax]
  · rw [cappedTokens, Nat.div_eq_of_lt hlt, Nat.mod_eq_of_lt hlt, if_neg (by omega)]
    rfl

/-- R121: the pending run fills up to the cap, then the next one begins. -/
theorem runsAfter_replicate (v : Half) (k n : Nat) (h1 : 1 ≤ k) (hmax : k ≤ runMax) :
    runsAfter v k (List.replicate n v) = cappedTokens (k + n) v := by
  induction n generalizing k with
  | zero => exact (cappedTokens_of_le v h1 hmax).symm
  | succ n ih =>
    obtain rfl | hlt := hmax.eq_or_lt
    · rw [List.replicate_succ, runsAfter_cons_new _ fun _ => le_rfl, ih 1 le_rfl h1, Nat.add_comm 1,
        Nat.add_comm runMax, cappedTokens_add_runMax]
    · rw [List.replicate_succ, runsAfter_cons_same _ hlt, ih (k + 1) (Nat.le_add_left 1 k) hlt, Nat.add_assoc,
        Nat.add_comm 1]

/-- R121: n equal values make full tokens and one of the rest. -/
theorem runs_replicate (n : Nat) (v : Half) : runs (List.replicate n v) = cappedTokens n v := by
  cases n with
  | zero => rfl
  | succ n => rw [List.replicate_succ, runs_cons, runsAfter_replicate v 1 n le_rfl (by decide), Nat.add_comm]

/-! ### The stream as 16-bit words -/

/-- R126: the reader puts the bytes of a word together again. -/
theorem halves_le16_append (v : Half) (bs : List Byte) : halves (le16 v ++ bs) = (halves bs).map (v :: ·) := by
  change (halves bs).map (rd16 false (v.extractLsb' 0 8) (v.extractLsb' 8 8) :: ·) = _
  rw [show rd16 false (v.extractLsb' 0 8) (v.extractLsb' 8 8) = v from rd16_word false v]

theorem halves_flatMap_le16 (ws : List Half) : halves (ws.flatMap le16) = some ws := by
  induction ws with
  | nil => rfl
  | cons w ws ih => rw [List.flatMap_cons, halves_le16_append, ih]; rfl

/-- R118: the two words of a token. -/
def tokenWords (t : Token) : List Half := [BitVec.ofNat 16 t.run, t.value]

theorem flatMap_tok_eq (ts : List Token) : ts.flatMap tok = (ts.flatMap tokenWords).flatMap le16 := by
  rw [List.flatMap_assoc]
  rfl

/-- R123: the words of a row: those of its tokens, then a marker. -/
def rowWords (ts : List Token) : List Half := ts.flatMap tokenWords ++ [0]

theorem rowWords_cons (t : Token) (ts : List Token) : rowWords (t :: ts) = tokenWords t ++ rowWords ts := by
  simp [rowWords]

section

variable (inBE : Bool) (r : Regs) (m : Memory)

/-- R123: the tokens of the rows, from the first row to the last. -/
def tokenRows : List (List Token) := (List.range r.height.toNat).map (rowTokens inBE r m)

theorem tokenRows_length : (tokenRows inBE r m).length = r.height.toNat := by
  rw [tokenRows, List.length_map, List.length_range]

theorem rowStream_eq (y : Nat) : rowStream inBE r m y = (rowWords (rowTokens inBE r m y)).flatMap le16 := by
  rw [rowStream, rowWords, List.flatMap_append, flatMap_tok_eq]
  rfl

/-- R123: the two words of the header, then the words of the rows. -/
theorem outRleRow_eq : outRleRow inBE r m =
    (BitVec.ofNat 16 r.width.toNat :: BitVec.ofNat 16 r.height.toNat ::
      (tokenRows inBE r m).flatMap rowWords).flatMap le16 := by
  rw [outRleRow, tokenRows, List.flatMap_cons, List.flatMap_cons, List.flatMap_assoc, List.flatMap_map,
    ← List.append_assoc]
  exact congrArg (_ ++ ·) (List.flatMap_congr fun y _ => rowStream_eq inBE r m y)

end

/-! ### Reading rows back -/

/-- R126: a word of 0 is a marker, whatever follows. -/
theorem readRow_marker (ws : List Half) : readRow (0 :: ws) = some ([], ws) := by
  cases ws <;> rfl

/-- R126: any other word is a run length, and the next word its value. -/
theorem readRow_of_ne_zero {w : Half} (hw : w ≠ 0) (v : Half) (ws : List Half) :
    readRow (w :: v :: ws) = (readRow ws).map fun p => (⟨w.toNat, v⟩ :: p.1, p.2) := if_neg hw

/-- R118: a run length is not the word of a marker, and its word holds all of it. -/
theorem readRow_token {t : Token} (ht : t.RunInRange) (ws : List Half) :
    readRow (tokenWords t ++ ws) = (readRow ws).map fun p => (t :: p.1, p.2) := by
  obtain ⟨h1, hmax⟩ := ht
  have hrun : (BitVec.ofNat 16 t.run).toNat = t.run := Nat.mod_eq_of_lt (Nat.lt_succ_of_le hmax)
  have hword : BitVec.ofNat 16 t.run ≠ 0 := fun h =>
    Nat.ne_of_gt h1 (hrun.symm.trans (congrArg BitVec.toNat h))
  rw [tokenWords, List.cons_append, List.cons_append, List.nil_append, readRow_of_ne_zero hword, hrun]

/-- R126: the tokens of a row, and what follows its marker. -/
theorem readRow_rowWords {ts : List Token} (h : ∀ t ∈ ts, t.RunInRange) (ws : List Half) :
    readRow (rowWords ts ++ ws) = some (ts, ws) := by
  induction ts with
  | nil => exact readRow_marker ws
  | cons t ts ih =>
    obtain ⟨ht, hts⟩ := List.forall_mem_cons.1 h
    rw [rowWords_cons, List.append_assoc, readRow_token ht, ih hts]
    rfl

/-- R126: the rows, with nothing left over. -/
theorem readRows_flatMap_rowWords {rows : List (List Token)} (h : ∀ ts ∈ rows, ∀ t ∈ ts, t.RunInRange) :
    readRows rows.length (rows.flatMap rowWords) = some (rows, []) := by
  induction rows with
  | nil => rfl
  | cons ts rows ih =>
    obtain ⟨hts, hrows⟩ := List.forall_mem_cons.1 h
    rw [List.length_cons, List.flatMap_cons, readRows, readRow_rowWords hts]
    dsimp only
    rw [ih hrows]
    rfl

/-! ### No column, one column, one value -/

section

variable (inBE : Bool) (r : Regs) (m : Memory)

theorem rowStream_of_no_column (y : Nat) (hw : r.width.toNat = 0) : rowStream inBE r m y = marker := by
  rw [rowStream, rowTokens_of_no_column r m inBE y hw]
  rfl

theorem flatMap_range_marker (n : Nat) : ((List.range n).flatMap fun _ => marker) = List.replicate (2 * n) 0 := by
  refine List.eq_replicate_iff.2 ⟨?_, ?_⟩
  · rw [length_flatMap_of_const _ fun _ _ => marker_length, List.length_range]
  · simp [marker, le16]

theorem rowStream_of_one_column (y : Nat) (hw : r.width.toNat = 1) :
    rowStream inBE r m y = le16 1 ++ le16 (pix inBE r m 0 y) ++ marker := by
  rw [rowStream, rowTokens, rowVals, hw]
  rfl

/-! ### The size of the row stream -/

/-- R123: the header's 4 bytes and those of the rows. -/
theorem outRleRow_length_eq_sum : (outRleRow inBE r m).length =
    4 + ((List.range r.height.toNat).map fun y => (rowStream inBE r m y).length).sum := by
  rw [outRleRow, List.length_append, header_length, List.length_flatMap]

/-- R128: the number of tokens of a row. -/
theorem rowTokens_length_bounds (y : Nat) : (r.width.toNat + 65534) / 65535 ≤ (rowTokens inBE r m y).length ∧
    (rowTokens inBE r m y).length ≤ r.width.toNat := by
  have hlower := length_le_runMax_mul (rowVals inBE r m y)
  have hupper := length_runs_le (rowVals inBE r m y)
  rw [rowVals_length] at hlower hupper
  refine ⟨?_, hupper⟩
  rw [runMax] at hlower
  rw [rowTokens]
  omega

/-- R128: a bound on every row bounds the stream. -/
theorem outRleRow_length_ge {n : Nat} (h : ∀ y, n ≤ (rowStream inBE r m y).length) :
    4 + r.height.toNat * n ≤ (outRleRow inBE r m).length := by
  have hsum := List.card_nsmul_le_sum ((List.range r.height.toNat).map fun y => (rowStream inBE r m y).length) n
    (List.forall_mem_map.2 fun y _ => h y)
  rw [List.length_map, List.length_range, smul_eq_mul] at hsum
  rw [outRleRow_length_eq_sum]
  exact Nat.add_le_add_left hsum 4

theorem outRleRow_length_le {n : Nat} (h : ∀ y, (rowStream inBE r m y).length ≤ n) :
    (outRleRow inBE r m).length ≤ 4 + r.height.toNat * n := by
  have hsum := List.sum_le_card_nsmul ((List.range r.height.toNat).map fun y => (rowStream inBE r m y).length) n
    (List.forall_mem_map.2 fun y _ => h y)
  rw [List.length_map, List.length_range, smul_eq_mul] at hsum
  rw [outRleRow_length_eq_sum]
  exact Nat.add_le_add_left hsum 4

/-- R128: a row of identical pixels is one token. -/
theorem rowTokens_of_identical {y : Nat} {v : Half} (h1 : 1 ≤ r.width.toNat) (hmax : r.width.toNat ≤ runMax)
    (h : ∀ x < r.width.toNat, pix inBE r m x y = v) : rowTokens inBE r m y = [⟨r.width.toNat, v⟩] := by
  have hrow : rowVals inBE r m y = List.replicate r.width.toNat v := by
    rw [rowVals, List.map_congr_left fun x hx => h x (List.mem_range.1 hx), List.map_const', List.length_range]
  rw [rowTokens, hrow, runs_replicate, cappedTokens_of_le v h1 hmax]

end

end Sys2Proof.Machine

namespace Sys2Proof.Proofs

open Sys2Proof.Machine Sys2Proof.Reader

/-- Settles O39: the stream is the words of the header and of the rows' tokens, and no token's run length is the word of
a marker, so the reader finds each row's tokens again; they expand to the row. -/
theorem rleRowStreamParses : Obligations.RleRowStreamParses := by
  intro inBE r m
  refine ⟨(tokenRows inBE r m).flatMap rowWords, tokenRows inBE r m, ?_, ?_, ?_, ?_⟩
  · rw [outRleRow_eq, halves_flatMap_le16]
  · rw [← tokenRows_length inBE r m]
    exact readRows_flatMap_rowWords (List.forall_mem_map.2 fun y _ => runs_inRange _)
  · rw [tokenRows, List.map_map]
    exact List.map_congr_left fun y _ => expand_runs _
  · exact List.forall_mem_map.2 fun y _ => (sum_run_runs _).trans (rowVals_length inBE r m y)

/-- Settles O37: by induction along the branches of the fold. -/
theorem runsExpandToInput : Obligations.RunsExpandToInput :=
  fun vs => ⟨expand_runs vs, runs_inRange vs, runs_nil⟩

/-- Settles O38: a pending run of equal values fills up to the cap; a run that is not full ends at another value only. -/
theorem runCapSplits : Obligations.RunCapSplits := by
  refine ⟨runs_replicate, fun vs before after t u hruns => ?_⟩
  obtain ⟨-, hsplit, -⟩ := List.isChain_append_cons_cons.1 (hruns ▸ runs_isChain vs)
  exact hsplit

/-- Settles O42: without a column a row is its marker, without a row nothing follows the header, and one pixel is one
token of run 1. -/
theorem rleRowEdgeCases : Obligations.RleRowEdgeCases := by
  refine fun inBE r m => ⟨fun hw => ?_, fun hh => ?_, fun hw => ?_⟩
  · rw [outRleRow, hw, ← flatMap_range_marker, List.flatMap_congr fun y _ => rowStream_of_no_column inBE r m y hw]
    rfl
  · rw [outRleRow, hh]
    rfl
  · rw [outRleRow, hw, List.flatMap_congr fun y _ => rowStream_of_one_column inBE r m y hw]
    rfl

/-- Settles O43: each token holds 1 to 65535 pixels, so each row's tokens, and the rows together, stay in the bounds. -/
theorem rleRowSizeBounds : Obligations.RleRowSizeBounds := by
  intro inBE r m hw
  refine ⟨rowTokens_length_bounds inBE r m, outRleRow_length_ge inBE r m fun y => ?_,
    outRleRow_length_le inBE r m fun y => ?_, fun y v hmax hv => ?_⟩
  · rw [rowStream_length]
    exact Nat.add_le_add_right (Nat.mul_le_mul_left 4 (rowTokens_length_bounds inBE r m y).1) 2
  · rw [rowStream_length]
    exact Nat.add_le_add_right (Nat.mul_le_mul_left 4 (rowTokens_length_bounds inBE r m y).2) 2
  · rw [rowStream_length, rowTokens_of_identical inBE r m hw hmax hv]
    rfl

end Sys2Proof.Proofs
end

section
/-! PROOFS. 45_rle_global.md: what the reader makes of the global stream, how many tokens a joined sequence has, the
image without pixels, and the settled statements about them (O40, O41, O44). -/

namespace Sys2Proof.Machine

open Sys2Proof.Reader

/-! ### Reading tokens back -/

/-- R118: one word holds a run length. -/
theorem Token.RunInRange.toNat_ofNat {t : Token} (ht : t.RunInRange) : (BitVec.ofNat 16 t.run).toNat = t.run :=
  Nat.mod_eq_of_lt (Nat.lt_succ_of_le ht.2)

theorem readTokens_token {t : Token} (ht : t.RunInRange) (ws : List Half) :
    readTokens (tokenWords t ++ ws) = (readTokens ws).map (t :: ·) := by
  rw [tokenWords, List.cons_append, List.cons_append, List.nil_append, readTokens, ht.toNat_ofNat]

/-- R135: tokens to the end of the stream, with nothing left over. -/
theorem readTokens_flatMap_tokenWords {ts : List Token} (h : ∀ t ∈ ts, t.RunInRange) :
    readTokens (ts.flatMap tokenWords) = some ts := by
  induction ts with
  | nil => rfl
  | cons t ts ih =>
    obtain ⟨ht, hts⟩ := List.forall_mem_cons.1 h
    rw [List.flatMap_cons, readTokens_token ht, ih hts]
    rfl

/-! ### How many tokens a joined sequence has -/

/-- R136: a longer pending run makes no fewer tokens, and at most one more. The two bounds need each other: where only
the longer run is full, it ends and the other one goes on, so the order of the two changes. -/
theorem length_runsAfter_interlace (v : Half) {j k : Nat} (vs : List Half) (hjk : j ≤ k) :
    (runsAfter v j vs).length ≤ (runsAfter v k vs).length ∧
      (runsAfter v k vs).length ≤ (runsAfter v j vs).length + 1 := by
  induction vs generalizing j k with
  | nil => exact ⟨le_rfl, Nat.le_succ 1⟩
  | cons w vs ih =>
    by_cases hw : w = v
    · subst hw
      obtain hk | hk := lt_or_ge k runMax
      · rw [runsAfter_cons_same vs hk, runsAfter_cons_same vs (hjk.trans_lt hk)]
        exact ih (Nat.succ_le_succ hjk)
      · rw [runsAfter_cons_new (k := k) vs fun _ => hk, List.length_cons]
        obtain hj | hj := lt_or_ge j runMax
        · obtain ⟨hge, hle⟩ := ih (Nat.le_add_left 1 j)
          rw [runsAfter_cons_same vs hj]
          exact ⟨hle, Nat.succ_le_succ hge⟩
        · rw [runsAfter_cons_new vs fun _ => hj]
          exact ⟨le_rfl, Nat.le_succ _⟩
    · rw [runsAfter_cons_new vs fun h => absurd h hw, runsAfter_cons_new vs fun h => absurd h hw]
      exact ⟨le_rfl, Nat.le_succ _⟩

/-- R136: a pending run adds at most its own token to those of the values after it. -/
theorem length_runsAfter_le (v : Half) (k : Nat) (vs : List Half) :
    (runsAfter v k vs).length ≤ (runs vs).length + 1 := by
  cases vs with
  | nil => exact le_rfl
  | cons w vs =>
    by_cases hlong : w = v ∧ k < runMax
    · obtain ⟨rfl, hk⟩ := hlong
      rw [runsAfter_cons_same vs hk, runs_cons]
      exact (length_runsAfter_interlace w vs (Nat.le_add_left 1 k)).2
    · rw [runsAfter_cons_new vs fun hw => not_lt.1 fun hk => hlong ⟨hw, hk⟩, runs_cons, List.length_cons]

theorem length_runsAfter_append_le (v : Half) (k : Nat) (us vs : List Half) :
    (runsAfter v k (us ++ vs)).length ≤ (runsAfter v k us).length + (runs vs).length := by
  induction v, k, us using pendingRun_induction with
  | nil v k => exact (length_runsAfter_le v k vs).trans_eq (Nat.add_comm _ 1)
  | same v k us hk ih => rwa [List.cons_append, runsAfter_cons_same _ hk, runsAfter_cons_same _ hk]
  | new v k w us hcap ih =>
    rw [List.cons_append, runsAfter_cons_new _ hcap, runsAfter_cons_new _ hcap, List.length_cons, List.length_cons,
      Nat.succ_add]
    exact Nat.succ_le_succ ih

/-- R136: a sequence has no more tokens than its two parts together. -/
theorem length_runs_append_le (us vs : List Half) :
    (runs (us ++ vs)).length ≤ (runs us).length + (runs vs).length := by
  cases us with
  | nil => exact (Nat.zero_add _).ge
  | cons u us => exact length_runsAfter_append_le u 1 us vs

theorem length_runs_flatMap_le {α : Type} (l : List α) (f : α → List Half) :
    (runs (l.flatMap f)).length ≤ (l.map fun a => (runs (f a)).length).sum := by
  induction l with
  | nil => exact le_rfl
  | cons a l ih =>
    rw [List.flatMap_cons, List.map_cons, List.sum_cons]
    exact (length_runs_append_le (f a) _).trans (Nat.add_le_add_left ih _)

section

variable (inBE : Bool) (r : Regs) (m : Memory)

/-- R123: four bytes for each token, two for each row's marker, four for the header. -/
theorem outRleRow_length_eq_tokens : (outRleRow inBE r m).length =
    4 * ((List.range r.height.toNat).map fun y => (rowTokens inBE r m y).length).sum + 2 * r.height.toNat + 4 := by
  rw [outRleRow_length_eq_sum, List.map_congr_left fun y _ => rowStream_length r m inBE y, List.sum_map_add,
    List.sum_map_mul_left, List.map_const', List.sum_replicate, List.length_range, smul_eq_mul, Nat.add_comm 4,
    Nat.mul_comm _ 2]

/-! ### No pixel -/

/-- R134: an image without columns or without rows has no pixel. -/
theorem flat_of_no_pixel (h : r.width.toNat = 0 ∨ r.height.toNat = 0) : flat inBE r m = [] :=
  List.eq_nil_of_length_eq_zero ((flat_length r m inBE).trans (Nat.mul_eq_zero.2 h))

theorem outRleGlobal_of_no_pixel (h : r.width.toNat = 0 ∨ r.height.toNat = 0) : outRleGlobal inBE r m = [] := by
  rw [outRleGlobal, globalTokens, flat_of_no_pixel inBE r m h]
  rfl

end

end Sys2Proof.Machine

namespace Sys2Proof.Proofs

open Sys2Proof.Machine Sys2Proof.Reader

/-- Settles O40: the stream is the words of the image's tokens, each of which the reader finds again; they expand to the
pixels. -/
theorem rleGlobalRoundTrip : Obligations.RleGlobalRoundTrip := by
  intro inBE r m
  refine ⟨(globalTokens inBE r m).flatMap tokenWords, globalTokens inBE r m, ?_, ?_, expand_runs _, ?_⟩
  · rw [outRleGlobal, flatMap_tok_eq, halves_flatMap_le16]
  · exact readTokens_flatMap_tokenWords (runs_inRange _)
  · exact (sum_run_runs _).trans (flat_length r m inBE)

/-- Settles O41: joining the rows makes no new token, and the row stream's header and markers come on top. -/
theorem globalStreamIsCompact : Obligations.GlobalStreamIsCompact := by
  intro inBE r m
  have htokens : (globalTokens inBE r m).length ≤
      ((List.range r.height.toNat).map fun y => (rowTokens inBE r m y).length).sum :=
    length_runs_flatMap_le _ _
  have hglobal : (outRleGlobal inBE r m).length = 4 * (globalTokens inBE r m).length := tokens_length _
  have hrow := outRleRow_length_eq_tokens inBE r m
  refine ⟨htokens, ?_, ?_⟩ <;> omega

/-- Settles O44: the stream is empty, so it fits any DST_LEN and writes nothing. -/
theorem zeroPixelsGiveNoTokens : Obligations.ZeroPixelsGiveNoTokens := by
  intro inBE s hnone hpass ho
  have hout : outOf (.rleGlobal inBE) s.latched s.snap = [] := outRleGlobal_of_no_pixel inBE s.latched s.snap hnone
  have hx := exec_of_fits (i := .rleGlobal inBE) rfl hpass ho (by rw [hout]; exact Nat.zero_le _)
  rw [hout] at hx
  exact ⟨runs_nil, hout, _, hx, rfl, rfl, rfl⟩

end Sys2Proof.Proofs
end

section
/-! PROOFS. 60_exceptions.md: the states in which nothing but the engine and a waiting host moves, which every step keeps,
and the settled statement about their runs (O58). -/

namespace Sys2Proof.Machine

section

variable {s t : State}

/-- R164: on its turn an engine with ordinary windows stays as it is or completes its command. -/
theorem step_of_ordinary_turn {u : State} (hn : nextTurn s = engineTurn u) (ho : u.windowsOrdinary = true) :
    ∃ t, step s = .next t ∧ (t = u ∨ CompletesFrom u t) := by
  rcases engineTurn_cases u with ⟨-, he⟩ | ⟨-, i, -, he⟩ | ⟨-, e, -, he⟩
  · exact ⟨u, step_of_other (hn.trans he), .inl rfl⟩
  · obtain ⟨t, ht⟩ := exec_of_ordinary i ho
    exact ⟨t, (step_of_run (hn.trans he)).trans ht, .inr (exec_completesFrom ht)⟩
  · exact ⟨_, step_of_other (hn.trans he), .inr (complete_completesFrom u .illegal)⟩

/-- R140, R164: a ready engine with ordinary windows, and nothing to come but its turns and a waiting host. -/
structure State.EngineAlone (s : State) : Prop where
  ready : s.resetLine = .ready
  ordinary : s.windowsOrdinary = true
  turns : ∀ e ∈ s.events, e = .engine ∨ e = .wait

/-- The hazard marks and the replies do not matter, and fewer events may be to come. -/
theorem State.EngineAlone.of_marks {es : List Event} (h : s.EngineAlone) (hes : es ⊆ s.events) (ws : List Window)
    (rs : List Reply) : State.EngineAlone { s with events := es, unacked := ws, replies := rs } :=
  ⟨h.ready, h.ordinary, fun e he => h.turns e (hes he)⟩

theorem State.EngineAlone.of_completesFrom (h : s.EngineAlone) (hc : CompletesFrom s t) : t.EngineAlone where
  ready := hc.resetLine.trans h.ready
  ordinary := by rw [State.windowsOrdinary, hc.latched, hc.platform]; exact h.ordinary
  turns := by rw [hc.events]; exact h.turns

theorem State.EngineAlone.step_of_turn {u : State} (h : u.EngineAlone) (hn : nextTurn s = engineTurn u) :
    ∃ t, step s = .next t ∧ t.EngineAlone := by
  obtain ⟨t, ht, rfl | hc⟩ := step_of_ordinary_turn hn h.ordinary
  · exact ⟨t, ht, h⟩
  · exact ⟨t, ht, h.of_completesFrom hc⟩

/-- R140, R143: such a state steps, by the engine's turn or by the STATUS read that ends a wait, to another one. -/
theorem State.EngineAlone.step (h : s.EngineAlone) : ∃ t, step s = .next t ∧ t.EngineAlone := by
  cases hev : s.events with
  | nil => exact h.step_of_turn (nextTurn_of_nil hev)
  | cons e rest =>
    have hrest : rest ⊆ s.events := hev ▸ List.subset_cons_self e rest
    rcases h.turns e (hev ▸ List.mem_cons_self) with rfl | rfl
    · exact (h.of_marks hrest s.unacked s.replies).step_of_turn (nextTurn_of_engine hev)
    · cases hp : s.phase with
      | busy => exact h.step_of_turn (nextTurn_of_wait_busy hev hp)
      | idle => exact ⟨_, step_of_ready_wait_idle h.ready hev hp, h.of_marks hrest [] (.reg s.status :: s.replies)⟩

theorem State.EngineAlone.of_reaches (h : s.EngineAlone) (hr : Reaches s t) : t.EngineAlone := by
  refine hr.invariant (fun u v hu huv => ?_) h
  obtain ⟨v', hv, halone⟩ := hu.step
  cases hv.symm.trans huv
  exact halone

end

end Sys2Proof.Machine

namespace Sys2Proof.Proofs

open Sys2Proof.Machine

/-- Settles O58: every state reached has the engine alone, and so it steps. -/
theorem engineAloneRunsSafely : Obligations.EngineAloneRunsSafely := by
  intro s hready ho hturns t hreach
  obtain ⟨u, hu, -⟩ := (State.EngineAlone.mk hready ho hturns).of_reaches hreach |>.step
  exact ⟨u, hu⟩

end Sys2Proof.Proofs
end

section
/-! PROOFS. 70_reset_and_hazards.md: what the assertion of reset leaves in the registers and in memory, the hazard faults
of a running command, and the settled statements about them (O51, O54). -/

namespace Sys2Proof.Machine

section

variable {s : State}

/-! ### The assertion of reset -/

/-- R152: after the assertion of reset every register of R23 reads as it does in the reset state. -/
theorem readReg_assertReset (r : Reg) : s.assertReset.readReg r = State.reset.readReg r := by cases r <;> rfl

/-- R153: byte k of a scrambled window is draw number `n + k`, as far as the address space goes. -/
theorem Memory.read_scramble_inside {m : Memory} {w : Window} (n : Nat) {k : Nat} (hm : m.wf) (hk : k < w.len)
    (hend : w.base + k < Config.addrSpace) : (m.scramble w n).read (w.base + k) = Config.freeByte (n + k) := by
  rw [Memory.scramble, Memory.read_writeBytes_inside hm (by simp only [List.length_map, List.length_range]; omega) k
    (by simp only [List.length_map, List.length_range]; omega)]
  simp only [List.getElem_map, List.getElem_range]

/-- R154: an idle engine's reset leaves memory alone. -/
theorem assertReset_mem_of_idle (hi : s.phase = .idle) : s.assertReset.mem = s.mem := by simp [hi]

/-- R153: the reset of a running command scrambles its destination window. -/
theorem assertReset_mem_of_busy (hb : s.phase = .busy) :
    s.assertReset.mem = s.mem.scramble s.latched.dstWindow s.draws := by
  simp [hb]

/-- R153: each byte of that window takes a draw. -/
theorem assertReset_draws_of_busy (hb : s.phase = .busy) :
    s.assertReset.draws = s.draws + s.latched.dstLen.toNat := by
  simp [hb]

/-! ### Hazards of a running command -/

/-- R158: the running command's destination window is a destination hazard. -/
theorem destHazard_of_busy {a : Nat} (hb : s.phase = .busy) (ha : s.latched.dstWindow.contains a = true) :
    s.destHazard a = true := by
  rw [State.destHazard, (Phase.isBusy_iff _).2 hb, ha, Bool.and_self, Bool.true_or]

/-- R159: the running command's source window is a source hazard. -/
theorem sourceHazard_of_busy {a : Nat} (hb : s.phase = .busy) (ha : s.latched.srcWindow.contains a = true) :
    s.sourceHazard a = true := by
  rw [State.sourceHazard, (Phase.isBusy_iff _).2 hb, ha, Bool.and_self]

theorem hostMemWrite_of_destHazard {a : Nat} (b : Byte) (ha : memAccess s a = none) (hd : s.destHazard a = true) :
    hostMemWrite a b s = .fault .hazardDestWrite := by simp [hostMemWrite, ha, hd]

/-- R159, R163: a write to a source hazard faults, under the destination's name where the address is a hazard of both
kinds. -/
theorem hostMemWrite_of_sourceHazard {a : Nat} (b : Byte) (ha : memAccess s a = none) (hs : s.sourceHazard a = true) :
    hostMemWrite a b s = .fault .hazardSourceWrite ∨ hostMemWrite a b s = .fault .hazardDestWrite := by
  cases hd : s.destHazard a with
  | true => exact .inr (hostMemWrite_of_destHazard b ha hd)
  | false => exact .inl (by simp [hostMemWrite, ha, hd, hs])

end

end Sys2Proof.Machine

namespace Sys2Proof.Proofs

open Sys2Proof.Machine

/-- Settles O51: the step is the assertion of reset, and the laws of a scrambled window give an abandoned command's
bytes. -/
theorem resetEffect : Obligations.ResetEffect := by
  intro s rest hwf hev
  let u : State := { s with events := rest }
  obtain ⟨hzero, -, -⟩ := resetStateReadsZero
  refine ⟨u.assertReset, step_of_resetAssert hev, rfl, fun r => (readReg_assertReset r).trans (hzero r), rfl, rfl, rfl,
    rfl, fun hidle => assertReset_mem_of_idle hidle, fun hbusy => ?_⟩
  have hmem : u.assertReset.mem = s.mem.scramble s.latched.dstWindow s.draws := assertReset_mem_of_busy hbusy
  rw [hmem]
  exact ⟨fun a ha => Memory.read_scramble_outside s.draws ha,
    fun k hk hend => Memory.read_scramble_inside (w := s.latched.dstWindow) s.draws hwf hk hend,
    assertReset_draws_of_busy hbusy⟩

/-- Settles O54: nothing but the hazard stops the access. -/
theorem hazardsFault : Obligations.HazardsFault := by
  intro s a b rest hbusy haddr hreg hord
  have hacc : memAccess s a = none := (memAccess_none_iff a).2 ⟨haddr, hreg, hord⟩
  refine ⟨fun hlow hhigh => ?_, fun hlow hhigh hev => ?_⟩
  · have hdest : s.destHazard a = true := destHazard_of_busy hbusy ((Window.contains_iff _ a).2 ⟨hlow, hhigh⟩)
    refine ⟨fun hev => ?_, fun hev => ?_⟩
    · rw [step_of_memRead hev]
      exact hostMemRead_of_hazard hacc hdest
    · rw [step_of_memWrite hev]
      exact hostMemWrite_of_destHazard b hacc hdest
  · have hsource : s.sourceHazard a = true := sourceHazard_of_busy hbusy ((Window.contains_iff _ a).2 ⟨hlow, hhigh⟩)
    rw [step_of_memWrite hev]
    exact hostMemWrite_of_sourceHazard b hacc hsource

end Sys2Proof.Proofs
end
